-- ==== Sys2Proof/Word.lean ====
section
/-! DEFINITION. The one unit of the machine: the 16-bit word (00_scope.md R8, R10; 20_memory.md R53, R54). -/

namespace Sys2Proof

/-- A register, a memory cell, an address, a message: 16 bits. Arithmetic on it is modulo 65536 (R10). -/
abbrev Word := BitVec 16

end Sys2Proof
end

