-- ==== Sys2Proof/Syntax.lean ====
section
/-! DEFINITION. Registers, operand descriptors and instructions as data (10_state.md R20, R21; 30_encoding.md R71, R72,
R83 to R86). An instruction holds its decoded operands, extra words included (40_dispatch_and_operands.md R108). -/

namespace Sys2Proof

/-- The eight general registers, by name (R21); `A` is index 0 and `J` index 7. -/
inductive Reg where
  | a | b | c | x | y | z | i | j
  deriving DecidableEq, Repr

/-- An operand descriptor: the twelve tags of R72, each with the payload that its tag uses. -/
inductive Operand where
  | regVal (r : Reg)
  | regInd (r : Reg)
  | regOffInd (r : Reg) (offset : Word)
  | pushPop
  | peek
  | pick (offset : Word)
  | spReg
  | pcReg
  | exReg
  | absInd (address : Word)
  | absLit (literal : Word)
  | inlineLit (literal : Word)
  deriving DecidableEq, Repr

/-- One constructor per instruction of R83 and R84, operands in the order `b`, `a` (R89), and one for each of the two
invalid formats of R85 and R86, which keep the unassigned opcode value. -/
inductive Instr where
  | set (b a : Operand)
  | add (b a : Operand)
  | sub (b a : Operand)
  | mul (b a : Operand)
  | mli (b a : Operand)
  | div (b a : Operand)
  | dvi (b a : Operand)
  | mod (b a : Operand)
  | mdi (b a : Operand)
  | and (b a : Operand)
  | bor (b a : Operand)
  | xor (b a : Operand)
  | shr (b a : Operand)
  | asr (b a : Operand)
  | shl (b a : Operand)
  | ifb (b a : Operand)
  | ifc (b a : Operand)
  | ife (b a : Operand)
  | ifn (b a : Operand)
  | ifg (b a : Operand)
  | ifa (b a : Operand)
  | ifl (b a : Operand)
  | ifu (b a : Operand)
  | adx (b a : Operand)
  | sbx (b a : Operand)
  | sti (b a : Operand)
  | std (b a : Operand)
  | jsr (a : Operand)
  | int (a : Operand)
  | iag (a : Operand)
  | ias (a : Operand)
  | rfi (a : Operand)
  | iaq (a : Operand)
  | hwn (a : Operand)
  | hwq (a : Operand)
  | hwi (a : Operand)
  | invalidBasicOpcode (o : BitVec 5) (b a : Operand)
  | invalidSpecialOpcode (code : BitVec 5) (a : Operand)
  deriving DecidableEq, Repr

/-- The mnemonics of the basic format (R83), without their numbers. -/
inductive BasicOp where
  | set | add | sub | mul | mli | div | dvi | mod | mdi | and | bor | xor | shr | asr | shl | ifb | ifc | ife
  | ifn | ifg | ifa | ifl | ifu | adx | sbx | sti | std
  deriving DecidableEq, Repr

/-- The mnemonics of the special format (R84), without their numbers. -/
inductive SpecialOp where
  | jsr | int | iag | ias | rfi | iaq | hwn | hwq | hwi
  deriving DecidableEq, Repr

/-- The instruction that a basic mnemonic names. -/
def BasicOp.instr (op : BasicOp) (b a : Operand) : Instr :=
  match op with
  | .set => .set b a
  | .add => .add b a
  | .sub => .sub b a
  | .mul => .mul b a
  | .mli => .mli b a
  | .div => .div b a
  | .dvi => .dvi b a
  | .mod => .mod b a
  | .mdi => .mdi b a
  | .and => .and b a
  | .bor => .bor b a
  | .xor => .xor b a
  | .shr => .shr b a
  | .asr => .asr b a
  | .shl => .shl b a
  | .ifb => .ifb b a
  | .ifc => .ifc b a
  | .ife => .ife b a
  | .ifn => .ifn b a
  | .ifg => .ifg b a
  | .ifa => .ifa b a
  | .ifl => .ifl b a
  | .ifu => .ifu b a
  | .adx => .adx b a
  | .sbx => .sbx b a
  | .sti => .sti b a
  | .std => .std b a

/-- The instruction that a special mnemonic names. -/
def SpecialOp.instr (op : SpecialOp) (a : Operand) : Instr :=
  match op with
  | .jsr => .jsr a
  | .int => .int a
  | .iag => .iag a
  | .ias => .ias a
  | .rfi => .rfi a
  | .iaq => .iaq a
  | .hwn => .hwn a
  | .hwq => .hwq a
  | .hwi => .hwi a

/-- An instruction as its format, its mnemonic or unassigned opcode value, and its operands. -/
inductive Form where
  | basic (op : BasicOp) (b a : Operand)
  | special (op : SpecialOp) (a : Operand)
  | invalidBasic (o : BitVec 5) (b a : Operand)
  | invalidSpecial (code : BitVec 5) (a : Operand)
  deriving DecidableEq, Repr

/-- The form of an instruction. -/
def Instr.form : Instr → Form
  | .set b a => .basic .set b a
  | .add b a => .basic .add b a
  | .sub b a => .basic .sub b a
  | .mul b a => .basic .mul b a
  | .mli b a => .basic .mli b a
  | .div b a => .basic .div b a
  | .dvi b a => .basic .dvi b a
  | .mod b a => .basic .mod b a
  | .mdi b a => .basic .mdi b a
  | .and b a => .basic .and b a
  | .bor b a => .basic .bor b a
  | .xor b a => .basic .xor b a
  | .shr b a => .basic .shr b a
  | .asr b a => .basic .asr b a
  | .shl b a => .basic .shl b a
  | .ifb b a => .basic .ifb b a
  | .ifc b a => .basic .ifc b a
  | .ife b a => .basic .ife b a
  | .ifn b a => .basic .ifn b a
  | .ifg b a => .basic .ifg b a
  | .ifa b a => .basic .ifa b a
  | .ifl b a => .basic .ifl b a
  | .ifu b a => .basic .ifu b a
  | .adx b a => .basic .adx b a
  | .sbx b a => .basic .sbx b a
  | .sti b a => .basic .sti b a
  | .std b a => .basic .std b a
  | .jsr a => .special .jsr a
  | .int a => .special .int a
  | .iag a => .special .iag a
  | .ias a => .special .ias a
  | .rfi a => .special .rfi a
  | .iaq a => .special .iaq a
  | .hwn a => .special .hwn a
  | .hwq a => .special .hwq a
  | .hwi a => .special .hwi a
  | .invalidBasicOpcode o b a => .invalidBasic o b a
  | .invalidSpecialOpcode code a => .invalidSpecial code a

/-- What the decoder sees in the bits of an instruction (R71): the format, the 5-bit opcode of that format, the `a`
descriptor and, for the basic format, the `b` descriptor. -/
structure Decoded where
  special : Bool
  code : BitVec 5
  a : Operand
  b : Option Operand
  deriving DecidableEq, Repr

end Sys2Proof
end

