-- ==== Sys2Proof/Config.lean ====
section
/-! DEFINITION. The parameters of 00_scope.md R9: the values each may take, and the two that the spec leaves OPEN
(92_eei_decisions.md D3, D9). An open parameter is an opaque constant: no proof can see which value it has, so what is
proved of the machine holds of both. This machine's values stand in Machine/Params.lean; the machine at any values is
Machine/Parametric.lean. -/

namespace Sys2Proof

/-- `SPECIAL_MODE`: what JSR, INT, IAG, IAS, RFI and IAQ do (45_special.md R261, R262). -/
inductive SpecialMode where
  | noOp
  | wired
  deriving DecidableEq, Repr, Inhabited

/-- `EX_WRITE_ORDER`: which of the result and EX is written first (40_dispatch_and_operands.md R126). -/
inductive ExWriteOrder where
  | resultThenEx
  | exThenResult
  deriving DecidableEq, Repr, Inhabited

/-- `SBX_EX_SIGN`: whether SBX subtracts or adds EX (44_carry_block.md R242). -/
inductive SbxExSign where
  | minus
  | plus
  deriving DecidableEq, Repr, Inhabited

/-- `SKIP_END_POLICY`: what a skip chain does at the top of memory (43_conditional.md R223). -/
inductive SkipEndPolicy where
  | stopAtTop
  | wrap
  deriving DecidableEq, Repr, Inhabited

/-- `FAULT_PC`: which address the error record holds (60_exceptions.md R313). -/
inductive FaultPc where
  | instrStart
  | advanced
  deriving DecidableEq, Repr, Inhabited

/-- `OPCODE_NUMBERING`: the table of opcode number to mnemonic, for each format; none where a number is unassigned
(30_encoding.md R83 to R86). -/
structure Numbering where
  basic : BitVec 5 → Option BasicOp
  special : BitVec 5 → Option SpecialOp

/-- The numbers that a 5-bit field can hold. -/
def opcodeNumbers : List (BitVec 5) := (List.range 32).map (BitVec.ofNat 5)

/-- The number of a basic mnemonic. Number 0 is the special format's marker (30_encoding.md R71) and never one. -/
def Numbering.basicCode (num : Numbering) (op : BasicOp) : BitVec 5 :=
  (opcodeNumbers.find? fun o => o != 0 && num.basic o == some op).getD 0

/-- The number of a special mnemonic. -/
def Numbering.specialCode (num : Numbering) (op : SpecialOp) : BitVec 5 :=
  (opcodeNumbers.find? fun c => num.special c == some op).getD 0

/-- A numbering in which every mnemonic has exactly one number. -/
abbrev Numbering.Good (num : Numbering) : Prop :=
  (∀ op, num.basicCode op ≠ 0 ∧ num.basic (num.basicCode op) = some op) ∧
  (∀ op, num.special (num.specialCode op) = some op) ∧
  (∀ o op, o ≠ 0 → num.basic o = some op → o = num.basicCode op) ∧
  (∀ c op, num.special c = some op → c = num.specialCode op)

/-- `COST_TABLE`: the base cost of each opcode (46_cost.md R290, R291). -/
structure CostTable where
  basic : BasicOp → Nat
  special : SpecialOp → Nat

/-- `BaseCost(ins)` (46_cost.md R290): 0 for an unassigned opcode (R293). -/
def CostTable.base (table : CostTable) (i : Instr) : Nat :=
  match i.form with
  | .basic op _ _ => table.basic op
  | .special op _ => table.special op
  | .invalidBasic _ _ _ => 0
  | .invalidSpecial _ _ => 0

/-- The named parameters of R9, which the parametric machine (Machine/Parametric.lean) takes as one argument. -/
structure Params where
  opcodeNumbering : Numbering
  costTable : CostTable
  specialMode : SpecialMode
  exWriteOrder : ExWriteOrder
  sbxExSign : SbxExSign
  skipEndPolicy : SkipEndPolicy
  faultPc : FaultPc
  invalidReadsOperands : Bool

/-- The three fault kinds (R34; 60_exceptions.md R310 to R312). The spec gives them no numbers (91_not_in_source.md N27). -/
inductive FaultKind where
  | invalidOpcode
  | invalidSpecialOpcode
  | invalidArgumentType
  deriving DecidableEq, Repr

/-- OPEN (92_eei_decisions.md D3): both values conform. Log entry 4. -/
opaque Config.specialMode : SpecialMode

/-- OPEN (92_eei_decisions.md D9): the source gives no order. Log entry 5. -/
opaque Config.exWriteOrder : ExWriteOrder

/-- The diagnostic text of a fault record with this kind, data and pc (10_state.md R34): the spec gives no text
(93_implementation_defined.md U15). Log entry 3. -/
opaque Config.diagnosticText : FaultKind → Word → Word → String

end Sys2Proof
end

