-- ==== Sys2Proof/Machine/Flags.lean ====
section
/-! DEFINITION. What each instruction computes from its operand values: results and EX values (41_arith.md,
42_logic_shift.md, 44_carry_block.md), and the eight tests (43_conditional.md R211 to R218). EX is the core's only
arithmetic side-effect state (10_state.md R25, R31). Values are computed exactly and narrowed at the end; the notation is
that of 00_scope.md section 5. -/

namespace Sys2Proof.Machine

/-- `trunc16(n)`. -/
def trunc16 (n : Int) : Word := BitVec.ofInt 16 n

/-- `hi16(n)`: `trunc16(floor(n / 65536))`. -/
def hi16 (n : Int) : Word := trunc16 (n / 65536)

/-- The unsigned reading of a word. -/
def u16 (v : Word) : Int := (v.toNat : Int)

/-- `s16(v)`: the two's-complement reading of a word. -/
def s16 (v : Word) : Int := v.toInt

/-- A result and the EX value that goes with it. -/
structure ResultEx where
  res : Word
  exv : Word
  deriving DecidableEq, Repr

/-- Narrow an exact result: the word and `hi16` of it. -/
def narrow (n : Int) : ResultEx := { res := trunc16 n, exv := hi16 n }

/-! ## Arithmetic -/

/-- ADD (R142). -/
def addResult (vb va : Word) : ResultEx := narrow (u16 vb + u16 va)

/-- SUB (R144; 90_conflicts.md C1). -/
def subResult (vb va : Word) : ResultEx := narrow (u16 vb - u16 va)

/-- MUL (R146). -/
def mulResult (vb va : Word) : ResultEx := narrow (u16 vb * u16 va)

/-- MLI (R148). -/
def mliResult (vb va : Word) : ResultEx := narrow (s16 vb * s16 va)

/-- DIV (R150). -/
def divResult (vb va : Word) : ResultEx :=
  if va = 0 then { res := 0, exv := 0 }
  else { res := trunc16 (u16 vb / u16 va), exv := trunc16 (u16 vb * 65536 / u16 va) }

/-- DVI (R152): both divisions truncate toward zero. DESIGN CHOICE (the spec's D11): log entry 22. -/
def dviResult (vb va : Word) : ResultEx :=
  if va = 0 then { res := 0, exv := 0 }
  else { res := trunc16 ((s16 vb).tdiv (s16 va)), exv := trunc16 ((s16 vb * 65536).tdiv (s16 va)) }

/-- MOD (R154). -/
def modResult (vb va : Word) : Word := if va = 0 then 0 else trunc16 (u16 vb % u16 va)

/-- MDI (R156): the remainder takes the sign of `b`. DESIGN CHOICE (the spec's D11): log entry 22. -/
def mdiResult (vb va : Word) : Word := if va = 0 then 0 else trunc16 ((s16 vb).tmod (s16 va))

/-- ADX (R240). -/
def adxResult (vb va c : Word) : ResultEx := narrow (u16 vb + u16 va + u16 c)

/-- SBX (R242), for both values of `SBX_EX_SIGN`. -/
def sbxResult (sign : SbxExSign) (vb va c : Word) : ResultEx :=
  match sign with
  | .minus => narrow (u16 vb - u16 va - u16 c)
  | .plus => narrow (u16 vb - u16 va + u16 c)

/-! ## Logic and shifts: the amount is the whole of `va`. DESIGN CHOICE (the spec's D10): log entry 21. -/

/-- AND (R180). -/
def andResult (vb va : Word) : Word := vb &&& va

/-- BOR (R181). -/
def borResult (vb va : Word) : Word := vb ||| va

/-- XOR (R182). -/
def xorResult (vb va : Word) : Word := vb ^^^ va

/-- The bits a right shift moves out: `trunc16((vb * 65536) >> va)`, `vb` unsigned (R184, R186). -/
def shiftedOut (vb va : Word) : Word := BitVec.ofNat 16 ((vb.toNat * 65536) >>> va.toNat)

/-- SHR (R184). -/
def shrResult (vb va : Word) : ResultEx :=
  { res := BitVec.ofNat 16 (vb.toNat >>> va.toNat), exv := shiftedOut vb va }

/-- ASR (R186): `floor(s16(vb) / 2^va)`. -/
def asrResult (vb va : Word) : ResultEx :=
  { res := trunc16 (s16 vb >>> va.toNat), exv := shiftedOut vb va }

/-- SHL (R188). -/
def shlResult (vb va : Word) : ResultEx :=
  { res := BitVec.ofNat 16 (vb.toNat <<< va.toNat), exv := BitVec.ofNat 16 ((vb.toNat <<< va.toNat) / 65536) }

/-! ## Tests -/

/-- IFB (R211). -/
def ifbTest (vb va : Word) : Bool := vb &&& va != 0

/-- IFC (R212). -/
def ifcTest (vb va : Word) : Bool := vb &&& va == 0

/-- IFE (R213). -/
def ifeTest (vb va : Word) : Bool := vb == va

/-- IFN (R214). -/
def ifnTest (vb va : Word) : Bool := vb != va

/-- IFG (R215): unsigned. -/
def ifgTest (vb va : Word) : Bool := va.toNat < vb.toNat

/-- IFA (R216): signed. -/
def ifaTest (vb va : Word) : Bool := s16 va < s16 vb

/-- IFL (R217): unsigned. -/
def iflTest (vb va : Word) : Bool := vb.toNat < va.toNat

/-- IFU (R218): signed. -/
def ifuTest (vb va : Word) : Bool := s16 vb < s16 va

end Sys2Proof.Machine
end

