-- ==== Sys2Proof/WellFormed.lean ====
section
/-! DEFINITION. Which instructions an encoding exists for (30_encoding.md R74, R80, R85, R86). The decoder answers only
such instructions; an ill-formed term is one that no 16-bit word stands for. -/

namespace Sys2Proof

/-- A literal that the 6-bit field holds: −1 (0xFFFF) or 0 to 30 (R74). -/
def inlineRange (v : Word) : Bool := v == 0xFFFF || v.toNat ≤ 30

/-- A descriptor that field `a` can hold: an inline literal is in range (R74), every other form has a field (R75, R76). -/
def Operand.wfA : Operand → Bool
  | .inlineLit v => inlineRange v
  | .regVal _ => true
  | .regInd _ => true
  | .regOffInd _ _ => true
  | .pushPop => true
  | .peek => true
  | .pick _ => true
  | .spReg => true
  | .pcReg => true
  | .exReg => true
  | .absInd _ => true
  | .absLit _ => true

/-- A descriptor that the 5-bit field `b` can hold: never an inline literal (R80). -/
def Operand.wfB : Operand → Bool
  | .inlineLit _ => false
  | .regVal _ => true
  | .regInd _ => true
  | .regOffInd _ _ => true
  | .pushPop => true
  | .peek => true
  | .pick _ => true
  | .spReg => true
  | .pcReg => true
  | .exReg => true
  | .absInd _ => true
  | .absLit _ => true

/-- The basic opcode values that name no instruction under a numbering (R85). -/
def unassignedBasic (num : Numbering) (o : BitVec 5) : Bool := o != 0 && num.basic o == none

/-- The special opcode values that name no instruction under a numbering (R86). -/
def unassignedSpecial (num : Numbering) (c : BitVec 5) : Bool := num.special c == none

/-- Both operands of a basic instruction fit their fields. -/
def wfBasic (b a : Operand) : Bool := b.wfB && a.wfA

/-- The instruction has an encoding under a numbering that numbers every mnemonic. -/
def Instr.wfUnder (num : Numbering) (i : Instr) : Bool :=
  match i.form with
  | .basic _ b a => wfBasic b a
  | .special _ a => a.wfA
  | .invalidBasic o b a => unassignedBasic num o && wfBasic b a
  | .invalidSpecial c a => unassignedSpecial num c && a.wfA

end Sys2Proof
end

