-- ==== Sys2Proof/Decode.lean ====
section
/-! DEFINITION. The decoder of 30_encoding.md (R70 to R82), written after the pseudocode of R77, and after it the encoder
from the same tables, both under any `OPCODE_NUMBERING` and under the default one. Decoding is total: every word is an
instruction, an unassigned opcode value included (R81, R85, R86). Only a list of words that ends inside an instruction is
refused, by name. -/

namespace Sys2Proof

/-! ## Fields -/

/-- `w[4:0]` (R70). -/
def opcodeField (w : Word) : BitVec 5 := w.extractLsb' 0 5

/-- `w[9:5]`: the `b` operand field, or the special opcode (R70, R71). -/
def bField (w : Word) : BitVec 5 := w.extractLsb' 5 5

/-- `w[15:10]` (R70). -/
def aField (w : Word) : BitVec 6 := w.extractLsb' 10 6

/-- The register that three field bits select (R76, R21). -/
def regOfBits (f : BitVec 3) : Reg :=
  match f.toNat with
  | 0 => .a
  | 1 => .b
  | 2 => .c
  | 3 => .x
  | 4 => .y
  | 5 => .z
  | 6 => .i
  | _ => .j

/-! ## The decoder -/

/-- `DecodeOperand(f, p, n)` of R77: `rd k` is the word at position `k` of the instruction and `n` the number of words
consumed so far. The order of the cases is that of R73: R74, R75, R76. -/
def decodeOperand (rd : Nat → Word) (f : BitVec 6) (n : Nat) : Operand × Nat :=
  if 0x20 ≤ f.toNat then (.inlineLit (f.setWidth 16 - 0x21), n)
  else
    match f.toNat with
    | 0x18 => (.pushPop, n)
    | 0x19 => (.peek, n)
    | 0x1a => (.pick (rd n), n + 1)
    | 0x1b => (.spReg, n)
    | 0x1c => (.pcReg, n)
    | 0x1d => (.exReg, n)
    | 0x1e => (.absInd (rd n), n + 1)
    | 0x1f => (.absLit (rd n), n + 1)
    | _ =>
      match (f.extractLsb' 3 2).toNat with
      | 0 => (.regVal (regOfBits (f.extractLsb' 0 3)), n)
      | 1 => (.regInd (regOfBits (f.extractLsb' 0 3)), n)
      | _ => (.regOffInd (regOfBits (f.extractLsb' 0 3)) (rd n), n + 1)

/-- The basic format of R83 and R85. PRESUMED: log entry 10. -/
def dcpu16Basic (o : BitVec 5) : Option BasicOp :=
  match o.toNat with
  | 0x01 => some .set
  | 0x02 => some .add
  | 0x03 => some .sub
  | 0x04 => some .mul
  | 0x05 => some .mli
  | 0x06 => some .div
  | 0x07 => some .dvi
  | 0x08 => some .mod
  | 0x09 => some .mdi
  | 0x0a => some .and
  | 0x0b => some .bor
  | 0x0c => some .xor
  | 0x0d => some .shr
  | 0x0e => some .asr
  | 0x0f => some .shl
  | 0x10 => some .ifb
  | 0x11 => some .ifc
  | 0x12 => some .ife
  | 0x13 => some .ifn
  | 0x14 => some .ifg
  | 0x15 => some .ifa
  | 0x16 => some .ifl
  | 0x17 => some .ifu
  | 0x1a => some .adx
  | 0x1b => some .sbx
  | 0x1e => some .sti
  | 0x1f => some .std
  | _ => none

/-- The special format of R84 and R86. PRESUMED: log entry 10. -/
def dcpu16Special (code : BitVec 5) : Option SpecialOp :=
  match code.toNat with
  | 0x01 => some .jsr
  | 0x08 => some .int
  | 0x09 => some .iag
  | 0x0a => some .ias
  | 0x0b => some .rfi
  | 0x0c => some .iaq
  | 0x10 => some .hwn
  | 0x11 => some .hwq
  | 0x12 => some .hwi
  | _ => none

/-- The default `OPCODE_NUMBERING`, that of DCPU-16 1.7. PRESUMED: log entry 10. -/
def dcpu16Numbering : Numbering := { basic := dcpu16Basic, special := dcpu16Special }

/-- The instruction that a basic opcode number names, or the invalid one (R83, R85). -/
def basicInstr (num : Numbering) (o : BitVec 5) (b a : Operand) : Instr :=
  match num.basic o with
  | some op => op.instr b a
  | none => .invalidBasicOpcode o b a

/-- The instruction that a special opcode number names, or the invalid one (R84, R86). -/
def specialInstr (num : Numbering) (code : BitVec 5) (a : Operand) : Instr :=
  match num.special code with
  | some op => op.instr a
  | none => .invalidSpecialOpcode code a

/-- A basic instruction as the decoder sees it (R71). -/
def basicView (o : BitVec 5) (b a : Operand) : Decoded := { special := false, code := o, a := a, b := some b }

/-- A special instruction as the decoder sees it (R71). -/
def specialView (code : BitVec 5) (a : Operand) : Decoded := { special := true, code := code, a := a, b := none }

/-- `Decode(p)` of R77 over the words `rd 0`, `rd 1`, `rd 2` that stand at and after `p`: the descriptors and how many
words they occupy. No number has a meaning here. -/
def decodeFields (rd : Nat → Word) : Decoded × Nat :=
  let w := rd 0
  let da := decodeOperand rd (aField w) 1
  if opcodeField w = 0 then (specialView (bField w) da.1, da.2)
  else
    let db := decodeOperand rd ((bField w).setWidth 6) da.2
    (basicView (opcodeField w) db.1 da.1, db.2)

/-- The instruction that `(special, code)` selects through a numbering (40_dispatch_and_operands.md R102). -/
def Decoded.instr (num : Numbering) (d : Decoded) : Instr :=
  match d.b with
  | some b => basicInstr num d.code b d.a
  | none => specialInstr num d.code d.a

/-- The instruction under a numbering, and how many words it occupies. -/
def decodeUnder (num : Numbering) (rd : Nat → Word) : Instr × Nat :=
  let d := decodeFields rd
  (d.1.instr num, d.2)

/-- The instruction under the default numbering. -/
abbrev decode (rd : Nat → Word) : Instr × Nat := decodeUnder dcpu16Numbering rd

/-- Why a list of words is no instruction. -/
inductive DecodeError where
  /-- The list ends before the instruction's last word. -/
  | truncated
  deriving DecidableEq, Repr

/-- Decode the instruction at the head of a list of words, and the words after it. -/
def decodeWordsUnder (num : Numbering) (ws : List Word) : Except DecodeError (Instr × List Word) :=
  let d := decodeUnder num (fun k => ws.getD k 0)
  if d.2 ≤ ws.length then .ok (d.1, ws.drop d.2) else .error .truncated

/-- The same under the default numbering. -/
abbrev decodeWords (ws : List Word) : Except DecodeError (Instr × List Word) := decodeWordsUnder dcpu16Numbering ws

/-- R82: decode at position `pos` of a bounded buffer, positions wrapping modulo its size. An empty buffer holds no
instruction. -/
def decodeBufferUnder (num : Numbering) (buf : List Word) (pos : Nat) : Option (Instr × Nat) :=
  if buf.isEmpty then none else some (decodeUnder num fun k => buf.getD ((pos + k) % buf.length) 0)

/-- The same under the default numbering. -/
abbrev decodeBuffer (buf : List Word) (pos : Nat) : Option (Instr × Nat) := decodeBufferUnder dcpu16Numbering buf pos

/-- The instruction's words as the opcode table numbers their bits: bit 0 is the least significant bit of the first word,
bit 16 that of the second; every bit from `nbits` on is 0. Three words, the longest instruction (R78). -/
def tableWords (nbits w : Nat) : List Word :=
  let v := w % 2 ^ nbits
  [BitVec.ofNat 16 v, BitVec.ofNat 16 (v / 2 ^ 16), BitVec.ofNat 16 (v / 2 ^ 32)]

/-- The instruction that the decoder reads from a word of the opcode table. -/
def decodeTableWord (nbits w : Nat) : Option Instr :=
  match decodeWords (tableWords nbits w) with
  | .ok d => some d.1
  | .error _ => none

/-! ## The encoder -/

/-- The three field bits that select a register (R76, R21). -/
def regBits : Reg → BitVec 3
  | .a => 0
  | .b => 1
  | .c => 2
  | .x => 3
  | .y => 4
  | .z => 5
  | .i => 6
  | .j => 7

/-- The operand field of a descriptor (R74, R75, R76). -/
def operandField : Operand → BitVec 6
  | .regVal r => (0 : BitVec 3) ++ regBits r
  | .regInd r => (1 : BitVec 3) ++ regBits r
  | .regOffInd r _ => (2 : BitVec 3) ++ regBits r
  | .pushPop => 0x18
  | .peek => 0x19
  | .pick _ => 0x1a
  | .spReg => 0x1b
  | .pcReg => 0x1c
  | .exReg => 0x1d
  | .absInd _ => 0x1e
  | .absLit _ => 0x1f
  | .inlineLit v => (v + 0x21).setWidth 6

/-- The extra word of a descriptor, if it takes one (R75, R76). -/
def operandExtra : Operand → List Word
  | .regOffInd _ n => [n]
  | .pick n => [n]
  | .absInd n => [n]
  | .absLit n => [n]
  | .regVal _ => []
  | .regInd _ => []
  | .pushPop => []
  | .peek => []
  | .spReg => []
  | .pcReg => []
  | .exReg => []
  | .inlineLit _ => []

/-- How many extra words the descriptor took at decode (R75, R76). -/
def Operand.extraWords : Operand → Nat
  | .regOffInd _ _ => 1
  | .pick _ => 1
  | .absInd _ => 1
  | .absLit _ => 1
  | .regVal _ => 0
  | .regInd _ => 0
  | .pushPop => 0
  | .peek => 0
  | .spReg => 0
  | .pcReg => 0
  | .exReg => 0
  | .inlineLit _ => 0

/-- The conditional mnemonics (43_conditional.md R220). -/
def BasicOp.isConditional (op : BasicOp) : Bool :=
  op ∈ [.ifb, .ifc, .ife, .ifn, .ifg, .ifa, .ifl, .ifu]

/-- R220: basic format and a conditional mnemonic. A special instruction, an unassigned opcode and every other mnemonic
are not conditional. -/
def Instr.isConditional (i : Instr) : Bool :=
  match i.form with
  | .basic op _ _ => op.isConditional
  | .special _ _ => false
  | .invalidBasic _ _ _ => false
  | .invalidSpecial _ _ => false

/-- R91: from an instruction to its opcode and operand descriptors, by the numbers of a numbering. -/
def Instr.viewUnder (num : Numbering) (i : Instr) : Decoded :=
  match i.form with
  | .basic op b a => basicView (num.basicCode op) b a
  | .special op a => specialView (num.specialCode op) a
  | .invalidBasic o b a => basicView o b a
  | .invalidSpecial code a => specialView code a

/-- The same under the default numbering. -/
abbrev Instr.view (i : Instr) : Decoded := i.viewUnder dcpu16Numbering

/-- The instruction has an encoding under the default numbering. -/
abbrev Instr.wf (i : Instr) : Bool := i.wfUnder dcpu16Numbering

/-- R294: one for each operand of the instruction that took an extra word. -/
def Decoded.extraWords (d : Decoded) : Nat :=
  d.a.extraWords + (match d.b with | some b => b.extraWords | none => 0)

/-- R294: one for each operand of the instruction that took an extra word. -/
def Instr.extraWords (i : Instr) : Nat :=
  match i.form with
  | .basic _ b a => a.extraWords + b.extraWords
  | .special _ a => a.extraWords
  | .invalidBasic _ b a => a.extraWords + b.extraWords
  | .invalidSpecial _ a => a.extraWords

/-- R78: the instruction's length in words. -/
def Instr.length (i : Instr) : Nat := 1 + i.extraWords

/-- The words of an instruction: `(a << 10) | (b << 5) | o`, then the extra word of `a`, then that of `b` (R70, R71,
R77, R260). -/
def encodeUnder (num : Numbering) (i : Instr) : List Word :=
  let d := i.viewUnder num
  match d.b with
  | some b =>
    (operandField d.a ++ (operandField b).setWidth 5 ++ d.code : BitVec 16) :: (operandExtra d.a ++ operandExtra b)
  | none => (operandField d.a ++ d.code ++ (0 : BitVec 5) : BitVec 16) :: operandExtra d.a

/-- The same under the default numbering. -/
abbrev encode (i : Instr) : List Word := encodeUnder dcpu16Numbering i

end Sys2Proof
end

