-- ==== Sys2Proof/Machine/State.lean ====
section
/-! DEFINITION. The machine-state record of 10_state.md as plain data, its reset value (R35; 70_reset_and_hazards.md
R360), and the reasons a step of the model can stop. -/

namespace Sys2Proof.Machine

/-- The general register file (R20, R21): one bank of eight words, none hard-wired. -/
structure Regs where
  a : Word
  b : Word
  c : Word
  x : Word
  y : Word
  z : Word
  i : Word
  j : Word
  deriving DecidableEq, Repr

/-- Memory (20_memory.md R50) as (address, word) pairs: addresses strictly rising, no listed word zero. An unlisted
address reads as 0, the reset contents of every word (R35). DESIGN CHOICE: log entry 1. -/
abbrev Memory := List (Nat × Word)

/-- The canonical form of a memory: equal memories are equal lists. -/
abbrev Memory.wf (m : Memory) : Prop :=
  m.Pairwise (fun p q => p.1 < q.1) ∧ ∀ p ∈ m, p.1 < 65536 ∧ p.2 ≠ 0

/-- The latched fault record (R34). No rule reads the message, and its text is the implementer's: log entry 3. -/
structure ErrorRecord where
  kind : FaultKind
  data : Word
  pc : Word
  message : String
  deriving DecidableEq, Repr

/-- The shared machine-state record (00_scope.md R3): every piece of state of 10_state.md. -/
structure State where
  /-- `R[0]`..`R[7]` (R20). -/
  regs : Regs
  /-- The program counter (R23). -/
  pc : Word
  /-- The stack pointer (R24). -/
  sp : Word
  /-- The overflow register (R25). -/
  ex : Word
  /-- The interrupt-address register (R26). -/
  ia : Word
  /-- The 65536 words of memory (20_memory.md R50). -/
  mem : Memory
  /-- HALTED (R28). -/
  halted : Bool
  /-- ON_FIRE (R29). -/
  onFire : Bool
  /-- QUEUE_INTERRUPTS (R30). -/
  queueInterrupts : Bool
  /-- The interrupt queue, oldest message first (R32 permits a list of at most 256 words): log entry 2. -/
  queue : List Word
  /-- The error latch (R34). -/
  error : Option ErrorRecord
  deriving DecidableEq, Repr

/-- R35, R360: every piece of state is zero or empty. -/
def State.reset : State where
  regs := { a := 0, b := 0, c := 0, x := 0, y := 0, z := 0, i := 0, j := 0 }
  pc := 0
  sp := 0
  ex := 0
  ia := 0
  mem := []
  halted := false
  onFire := false
  queueInterrupts := false
  queue := []
  error := none

/-- Why a step of the MODEL ends the run. A fault of the machine (R310 to R312) is not one of these: it is latched in
`State.error`, and the machine goes on answering next states (40_dispatch_and_operands.md R100, R103). -/
inductive Fault where
  /-- Raised by a failing conditional under `SKIP_END_POLICY = Wrap` when no instruction on the wrapped path ends the
  skip chain, so that the step never ends and has no outcome (43_conditional.md R223; 93_implementation_defined.md U9: a
  stuck state). Never raised under the default `StopAtTop`. Safe. -/
  | skipNeverEnds
  deriving DecidableEq, Repr

/-- Why the model gives an instruction no meaning. -/
inductive Refusal where
  /-- Raised by an arm of `exec` whose instruction has no meaning yet. Safe. -/
  | notModelled (mnemonic : String)
  deriving DecidableEq, Repr

end Sys2Proof.Machine
end

