-- ==== Sys2Proof/Machine/Ops.lean ====
section
/-! DEFINITION. The named operations over registers, memory, the stack, the error latch and the interrupt queue that
every meaning is built from: 10_state.md, 20_memory.md R50 to R52, 40_dispatch_and_operands.md R101 and R115,
60_exceptions.md R313 to R331. -/

namespace Sys2Proof.Machine

/-! ## Registers (10_state.md R20 to R22) -/

/-- `R[i]`. -/
def Regs.get (g : Regs) : Reg → Word
  | .a => g.a
  | .b => g.b
  | .c => g.c
  | .x => g.x
  | .y => g.y
  | .z => g.z
  | .i => g.i
  | .j => g.j

/-- `R[i] <- v`. -/
def Regs.set (g : Regs) (r : Reg) (v : Word) : Regs :=
  match r with
  | .a => { g with a := v }
  | .b => { g with b := v }
  | .c => { g with c := v }
  | .x => { g with x := v }
  | .y => { g with y := v }
  | .z => { g with z := v }
  | .i => { g with i := v }
  | .j => { g with j := v }

/-- `R[r]` of a state. -/
def State.reg (s : State) (r : Reg) : Word := s.regs.get r

/-- `R[r] <- v`. -/
def State.setReg (s : State) (r : Reg) (v : Word) : State := { s with regs := s.regs.set r v }

/-! ## Memory (20_memory.md R50, R52) -/

/-- The word listed at a key, or 0. -/
def Memory.lookup : Memory → Nat → Word
  | [], _ => 0
  | (k, v) :: m, a => if k = a then v else Memory.lookup m a

/-- Put a word at a key, keeping the keys rising. -/
def Memory.insert : Memory → Nat → Word → Memory
  | [], a, v => [(a, v)]
  | (k, w) :: m, a, v =>
    if a < k then (a, v) :: (k, w) :: m else if k = a then (a, v) :: m else (k, w) :: Memory.insert m a v

/-- `MemRead(addr, 1)`. -/
def Memory.read (m : Memory) (addr : Word) : Word := m.lookup addr.toNat

/-- `MemWrite(addr, 1, v)`. Writing 0, what an unlisted address reads as, removes the entry. -/
def Memory.write (m : Memory) (addr v : Word) : Memory :=
  if v = 0 then m.filter (fun p => p.1 != addr.toNat) else m.insert addr.toNat v

/-- `M[addr] <- v`. -/
def State.store (s : State) (addr v : Word) : State := { s with mem := s.mem.write addr v }

/-! ## The stack (40_dispatch_and_operands.md R115) -/

/-- `Write(PushPop, v)`: SP moves down, then the word is stored there. -/
def State.push (s : State) (v : Word) : State := { s with sp := s.sp - 1, mem := s.mem.write (s.sp - 1) v }

/-- `Read(PushPop)`: the word at SP, and SP moved up. -/
def State.pop (s : State) : Word × State := (s.mem.read s.sp, { s with sp := s.sp + 1 })

/-! ## Fetching and advancing (40_dispatch_and_operands.md R101; 30_encoding.md R77, R79) -/

/-- `Decode(p)` on the machine's memory: positions wrap modulo 65536 (R79). -/
def decodeAtUnder (num : Numbering) (m : Memory) (p : Word) : Instr × Nat :=
  decodeUnder num fun k => m.read (p + BitVec.ofNat 16 k)

/-- The same under the default numbering. -/
abbrev decodeAt (m : Memory) (p : Word) : Instr × Nat := decodeAtUnder dcpu16Numbering m p

/-- The instruction at the PC, and its length (R101). -/
def fetchUnder (num : Numbering) (s : State) : Instr × Nat := decodeAtUnder num s.mem s.pc

/-- The same under the default numbering. -/
abbrev fetch (s : State) : Instr × Nat := fetchUnder dcpu16Numbering s

/-- `PC <- trunc16(PC + n)`. -/
def State.advance (s : State) (n : Nat) : State := { s with pc := s.pc + BitVec.ofNat 16 n }

/-! ## Taking a fault (60_exceptions.md R313, R314, R316) -/

/-- The record of a fault (R313), with the diagnostic text that the implementation gives it. -/
def faultRecord (kind : FaultKind) (data pc : Word) : ErrorRecord :=
  { kind := kind, data := data, pc := pc, message := Config.diagnosticText kind data pc }

/-- `Latch(kind, data, start)`: record the fault and halt. The PC is already advanced and stays so (R314). -/
def latch (fp : FaultPc) (kind : FaultKind) (data start : Word) (s : State) : State :=
  { s with
    error := some (faultRecord kind data (match fp with | .instrStart => start | .advanced => s.pc))
    halted := true }

/-- `ClearError()` (R316): the host's way out of a halt. -/
def clearError (s : State) : State := { s with error := none, halted := false }

/-! ## The interrupt controller (60_exceptions.md R322 to R331) -/

/-- The capacity of the queue (10_state.md R32). -/
def queueCapacity : Nat := 256

/-- `Enqueue(m)` (R322): the new state, and whether the message was stored. -/
def enqueue (m : Word) (s : State) : State × Bool :=
  if s.queue.length ≥ queueCapacity then ({ s with onFire := true }, false)
  else ({ s with queue := s.queue ++ [m] }, true)

/-- Delivery of a dequeued message to the handler (R331): the core's only trap entry (R333). -/
def enterHandler (m : Word) (s : State) : State :=
  let s := { s with queueInterrupts := true }
  let s := s.push s.pc
  let s := s.push s.regs.a
  { s.setReg .a m with pc := s.ia }

/-- `RFI`'s effect in `Wired` mode (45_special.md R268): pop A, then PC, and clear QUEUE_INTERRUPTS. -/
def leaveHandler (s : State) : State :=
  let a := s.pop
  let s := a.2.setReg .a a.1
  let p := s.pop
  { p.2 with pc := p.1, queueInterrupts := false }

/-- `AttemptDelivery()` (R327 to R330): at most one message leaves the queue. -/
def attemptDelivery (s : State) : State :=
  if s.queueInterrupts then s
  else
    match s.queue with
    | [] => s
    | m :: q =>
      let s := { s with queue := q }
      if s.ia = 0 then s else enterHandler m s

/-- The end of a step (40_dispatch_and_operands.md R101, R104): one delivery attempt, and none where the instruction
latched a fault. -/
def endOfStep (s : State) : State := if s.error.isSome then s else attemptDelivery s

end Sys2Proof.Machine
end

