-- ==== Sys2Proof/Machine/Params.lean ====
section
/-! DEFINITION. The parameter values of this machine (00_scope.md R9): the two OPEN ones are the opaque constants of
Config.lean, the other six stand at the spec's defaults. -/

namespace Sys2Proof.Machine

/-- The default base costs of the basic format (46_cost.md R292). PRESUMED: log entry 11. -/
def dcpu16BasicCost : BasicOp → Nat
  | .set => 1
  | .add => 2
  | .sub => 2
  | .mul => 2
  | .mli => 2
  | .div => 3
  | .dvi => 3
  | .mod => 3
  | .mdi => 3
  | .and => 1
  | .bor => 1
  | .xor => 1
  | .shr => 1
  | .asr => 1
  | .shl => 1
  | .ifb => 2
  | .ifc => 2
  | .ife => 2
  | .ifn => 2
  | .ifg => 2
  | .ifa => 2
  | .ifl => 2
  | .ifu => 2
  | .adx => 3
  | .sbx => 3
  | .sti => 2
  | .std => 2

/-- The default base costs of the special format (R292). PRESUMED: log entry 11. -/
def dcpu16SpecialCost : SpecialOp → Nat
  | .jsr => 3
  | .int => 4
  | .iag => 1
  | .ias => 1
  | .rfi => 3
  | .iaq => 2
  | .hwn => 2
  | .hwq => 4
  | .hwi => 4

/-- The default `COST_TABLE`, that of DCPU-16 1.7. PRESUMED: log entry 11. -/
def dcpu16CostTable : CostTable := { basic := dcpu16BasicCost, special := dcpu16SpecialCost }

/-- The machine's parameters (R9). DESIGN CHOICE (the spec's own defaults D1, D2, D30, D12, D14, D15): log entries 4
to 11. -/
def params : Params where
  opcodeNumbering := dcpu16Numbering
  costTable := dcpu16CostTable
  specialMode := Config.specialMode
  exWriteOrder := Config.exWriteOrder
  sbxExSign := .minus
  skipEndPolicy := .stopAtTop
  faultPc := .instrStart
  invalidReadsOperands := true

end Sys2Proof.Machine
end

