-- ==== Sys2Proof/Machine/Operands.lean ====
section
/-! DEFINITION. The Operand Resolver (40_dispatch_and_operands.md R110 to R121) and the order in which an instruction
accesses its operands (R106, R107, R122, R123, R126). -/

namespace Sys2Proof.Machine

/-- `Read(op)` of R121: the value, and the state after it. Only a pop changes the state. -/
def readOperand (op : Operand) (s : State) : Word × State :=
  match op with
  | .regVal r => (s.reg r, s)
  | .regInd r => (s.mem.read (s.reg r), s)
  | .regOffInd r offset => (s.mem.read (s.reg r + offset), s)
  | .pushPop => s.pop
  | .peek => (s.mem.read s.sp, s)
  | .pick offset => (s.mem.read (s.sp + offset), s)
  | .spReg => (s.sp, s)
  | .pcReg => (s.pc, s)
  | .exReg => (s.ex, s)
  | .absInd address => (s.mem.read address, s)
  | .absLit literal => (literal, s)
  | .inlineLit literal => (literal, s)

/-- `Write(op, v)` of R121. A write to a literal is a silent no-op (R118, R119). -/
def writeOperand (op : Operand) (v : Word) (s : State) : State :=
  match op with
  | .regVal r => s.setReg r v
  | .regInd r => s.store (s.reg r) v
  | .regOffInd r offset => s.store (s.reg r + offset) v
  | .pushPop => s.push v
  | .peek => s.store s.sp v
  | .pick offset => s.store (s.sp + offset) v
  | .spReg => { s with sp := v }
  | .pcReg => { s with pc := v }
  | .exReg => { s with ex := v }
  | .absInd address => s.store address v
  | .absLit _ => s
  | .inlineLit _ => s

/-- The address that `writeOperand op _ s` stores to, or none where it stores nothing: the same expressions. -/
def storeAddress (op : Operand) (s : State) : Option Word :=
  match op with
  | .regInd r => some (s.reg r)
  | .regOffInd r offset => some (s.reg r + offset)
  | .pushPop => some (s.sp - 1)
  | .peek => some s.sp
  | .pick offset => some (s.sp + offset)
  | .absInd address => some address
  | .regVal _ => none
  | .spReg => none
  | .pcReg => none
  | .exReg => none
  | .absLit _ => none
  | .inlineLit _ => none

/-- The length of a basic instruction with these operands (30_encoding.md R78). -/
def basicLength (b a : Operand) : Nat := 1 + a.extraWords + b.extraWords

/-- The length of a special instruction with this operand (R78). -/
def specialLength (a : Operand) : Nat := 1 + a.extraWords

/-- The value of `a`, and the state after it was read with the PC past a basic instruction (R101, R107). -/
def readA (b a : Operand) (s : State) : Word × State := readOperand a (s.advance (basicLength b a))

/-- The same for a special instruction, which has no `b`. -/
def readSpecial (a : Operand) (s : State) : Word × State := readOperand a (s.advance (specialLength a))

/-- Both operand values, and the state after both reads. -/
structure Captured where
  va : Word
  vb : Word
  after : State
  deriving DecidableEq, Repr

/-- Read `a`, then `b` (R107, R122). -/
def readBoth (b a : Operand) (s : State) : Captured :=
  let ra := readA b a s
  let rb := readOperand b ra.2
  { va := ra.1, vb := rb.1, after := rb.2 }

/-- `WriteResult(b, res, exv)` of R126. The two orders can be told apart only when `b` is EX, so the order is looked at
only there; Laws/Operands.lean proves this equal to R126's own pseudocode for every operand. -/
def writeResult (order : ExWriteOrder) (b : Operand) (res exv : Word) (s : State) : State :=
  match b with
  | .exReg => { s with ex := match order with | .resultThenEx => exv | .exThenResult => res }
  | b => { writeOperand b res s with ex := exv }

/-- Operand reads of an invalid instruction before its fault (R109): the state they leave. -/
def discardBasic (reads : Bool) (b a : Operand) (s : State) : State :=
  if reads then (readBoth b a s).after else s.advance (basicLength b a)

/-- The same for the special format: only `a`. -/
def discardSpecial (reads : Bool) (a : Operand) (s : State) : State :=
  if reads then (readSpecial a s).2 else s.advance (specialLength a)

end Sys2Proof.Machine
end

