-- ==== Sys2Proof/Machine/Shapes.lean ====
section
/-! DEFINITION. The access patterns of 40_dispatch_and_operands.md R106, each once: an instruction's meaning is one of
them over its own computation. Every pattern starts by moving the PC past the instruction (R101). -/

namespace Sys2Proof.Machine

/-- The outcome type of a step and of an instruction. -/
abbrev Outcome := Host.Outcome State Fault Refusal

/-- Read `a`, read `b`, compute a result and an EX value (from the operands and EX, R127), write both (R107, R126). -/
def computeEx (P : Params) (f : Word → Word → Word → ResultEx) (b a : Operand) (s : State) : State :=
  let r := readBoth b a s
  let x := f r.vb r.va r.after.ex
  writeResult P.exWriteOrder b x.res x.exv r.after

/-- Read `a`, read `b`, compute, write `b`; EX is not touched. -/
def compute (f : Word → Word → Word) (b a : Operand) (s : State) : State :=
  let r := readBoth b a s
  writeOperand b (f r.vb r.va) r.after

/-- Read `a` and write it to `b`, which is not read. DESIGN CHOICE (the spec's D8): log entry 23. -/
def assign (b a : Operand) (s : State) : State :=
  let r := readA b a s
  writeOperand b r.1 r.2

/-- Add a step to both block-copy cursors, I and J (44_carry_block.md R244). PRESUMED: log entry 20. -/
def moveCursors (d : Word) (s : State) : State :=
  { s with regs := { s.regs with i := s.regs.i + d, j := s.regs.j + d } }

end Sys2Proof.Machine
end

