-- ==== Sys2Proof/Machine/Arith.lean ====
section
/-! DEFINITION. Assignment and arithmetic: 41_arith.md. -/

namespace Sys2Proof.Machine

/-- SET b, a (R140). -/
def execSet (b a : Operand) (s : State) : Outcome := .next (assign b a s)

/-- ADD b, a (R142). -/
def addUnder (P : Params) (b a : Operand) (s : State) : Outcome :=
  .next (computeEx P (fun vb va _ => addResult vb va) b a s)

/-- ADD b, a, in this machine. -/
def execAdd (b a : Operand) (s : State) : Outcome := addUnder params b a s

/-- SUB b, a (R144). -/
def subUnder (P : Params) (b a : Operand) (s : State) : Outcome :=
  .next (computeEx P (fun vb va _ => subResult vb va) b a s)

/-- SUB b, a, in this machine. -/
def execSub (b a : Operand) (s : State) : Outcome := subUnder params b a s

/-- MUL b, a (R146). -/
def mulUnder (P : Params) (b a : Operand) (s : State) : Outcome :=
  .next (computeEx P (fun vb va _ => mulResult vb va) b a s)

/-- MUL b, a, in this machine. -/
def execMul (b a : Operand) (s : State) : Outcome := mulUnder params b a s

/-- MLI b, a (R148). -/
def mliUnder (P : Params) (b a : Operand) (s : State) : Outcome :=
  .next (computeEx P (fun vb va _ => mliResult vb va) b a s)

/-- MLI b, a, in this machine. -/
def execMli (b a : Operand) (s : State) : Outcome := mliUnder params b a s

/-- DIV b, a (R150). -/
def divUnder (P : Params) (b a : Operand) (s : State) : Outcome :=
  .next (computeEx P (fun vb va _ => divResult vb va) b a s)

/-- DIV b, a, in this machine. -/
def execDiv (b a : Operand) (s : State) : Outcome := divUnder params b a s

/-- DVI b, a (R152). -/
def dviUnder (P : Params) (b a : Operand) (s : State) : Outcome :=
  .next (computeEx P (fun vb va _ => dviResult vb va) b a s)

/-- DVI b, a, in this machine. -/
def execDvi (b a : Operand) (s : State) : Outcome := dviUnder params b a s

/-- MOD b, a (R154). -/
def execMod (b a : Operand) (s : State) : Outcome := .next (compute modResult b a s)

/-- MDI b, a (R156). -/
def execMdi (b a : Operand) (s : State) : Outcome := .next (compute mdiResult b a s)

end Sys2Proof.Machine
end

