-- ==== Sys2Proof/Machine/Carry.lean ====
section
/-! DEFINITION. Add and subtract with EX, and the block-copy stores: 44_carry_block.md. -/

namespace Sys2Proof.Machine

/-- ADX b, a (R240). -/
def adxUnder (P : Params) (b a : Operand) (s : State) : Outcome :=
  .next (computeEx P adxResult b a s)

/-- ADX b, a, in this machine. -/
def execAdx (b a : Operand) (s : State) : Outcome := adxUnder params b a s

/-- SBX b, a (R242). -/
def sbxUnder (P : Params) (b a : Operand) (s : State) : Outcome := .next (computeEx P (sbxResult P.sbxExSign) b a s)

/-- SBX b, a with either value of `SBX_EX_SIGN`, the other parameters being this machine's. -/
def subtractWithEx (sign : SbxExSign) (b a : Operand) (s : State) : State := computeEx params (sbxResult sign) b a s

/-- SBX b, a, in this machine. -/
def execSbx (b a : Operand) (s : State) : Outcome := sbxUnder params b a s

/-- STI b, a (R248): the write to `b` comes before the increment. -/
def execSti (b a : Operand) (s : State) : Outcome := .next (moveCursors 1 (assign b a s))

/-- STD b, a (R250). -/
def execStd (b a : Operand) (s : State) : Outcome := .next (moveCursors (-1) (assign b a s))

end Sys2Proof.Machine
end

