-- ==== Sys2Proof/Machine/Conditional.lean ====
section
/-! DEFINITION. The conditional instructions and the skip protocol: 43_conditional.md. -/

namespace Sys2Proof.Machine

/-- How many instructions a skip may decode before it is known never to end: with one more than the 65536 positions,
a position has come round again (R105, R223). -/
def skipFuel : Nat := 65537

/-- The loop of `Skip()` (R221): `p` is the unwrapped position and `skipped` the count so far. It answers the position
after the last skipped instruction and the count, or none where the fuel runs out. A skipped instruction is decoded and
nothing else (R222). -/
def skipLoop (num : Numbering) (policy : SkipEndPolicy) (m : Memory) : Nat → Nat → Nat → Option (Nat × Nat)
  | 0, _, _ => none
  | fuel + 1, p, skipped =>
    if policy = .stopAtTop ∧ 65536 ≤ p then some (p, skipped)
    else
      let d := decodeAtUnder num m (BitVec.ofNat 16 p)
      if d.1.isConditional then skipLoop num policy m fuel (p + d.2) (skipped + 1) else some (p + d.2, skipped + 1)

/-- `Skip()` for a conditional at `start` of length `n`: `p` begins unwrapped at `start + n` (R221). -/
def skipChainUnder (num : Numbering) (policy : SkipEndPolicy) (m : Memory) (start : Word) (n : Nat) : Option (Nat × Nat) :=
  skipLoop num policy m skipFuel (start.toNat + n) 0

/-- The same under the default numbering. -/
abbrev skipChain (policy : SkipEndPolicy) (m : Memory) (start : Word) (n : Nat) : Option (Nat × Nat) :=
  skipChainUnder dcpu16Numbering policy m start n

/-- A conditional instruction (R210): read `a`, read `b`, test; on failure skip. It answers the state and how many
instructions were skipped, or none where the skip never ends. -/
def conditionalOn (P : Params) (test : Word → Word → Bool) (b a : Operand) (s : State) : Option (State × Nat) :=
  let r := readBoth b a s
  if test r.vb r.va then some (r.after, 0)
  else
    match skipChainUnder P.opcodeNumbering P.skipEndPolicy r.after.mem s.pc (basicLength b a) with
    | some e => some ({ r.after with pc := BitVec.ofNat 16 e.1 }, e.2)
    | none => none

/-- The outcome of a conditional: a step that never ends has none (R223), and stops the model by name. -/
def conditional (P : Params) (test : Word → Word → Bool) (b a : Operand) (s : State) : Outcome :=
  match conditionalOn P test b a s with
  | some r => .next r.1
  | none => .fault .skipNeverEnds

/-- IFB b, a (R211). -/
def ifbUnder (P : Params) (b a : Operand) (s : State) : Outcome :=
  conditional P ifbTest b a s

/-- IFB b, a, in this machine. -/
def execIfb (b a : Operand) (s : State) : Outcome := ifbUnder params b a s

/-- IFC b, a (R212). -/
def ifcUnder (P : Params) (b a : Operand) (s : State) : Outcome :=
  conditional P ifcTest b a s

/-- IFC b, a, in this machine. -/
def execIfc (b a : Operand) (s : State) : Outcome := ifcUnder params b a s

/-- IFE b, a (R213). -/
def ifeUnder (P : Params) (b a : Operand) (s : State) : Outcome :=
  conditional P ifeTest b a s

/-- IFE b, a, in this machine. -/
def execIfe (b a : Operand) (s : State) : Outcome := ifeUnder params b a s

/-- IFN b, a (R214). -/
def ifnUnder (P : Params) (b a : Operand) (s : State) : Outcome :=
  conditional P ifnTest b a s

/-- IFN b, a, in this machine. -/
def execIfn (b a : Operand) (s : State) : Outcome := ifnUnder params b a s

/-- IFG b, a (R215). -/
def ifgUnder (P : Params) (b a : Operand) (s : State) : Outcome :=
  conditional P ifgTest b a s

/-- IFG b, a, in this machine. -/
def execIfg (b a : Operand) (s : State) : Outcome := ifgUnder params b a s

/-- IFA b, a (R216). -/
def ifaUnder (P : Params) (b a : Operand) (s : State) : Outcome :=
  conditional P ifaTest b a s

/-- IFA b, a, in this machine. -/
def execIfa (b a : Operand) (s : State) : Outcome := ifaUnder params b a s

/-- IFL b, a (R217). -/
def iflUnder (P : Params) (b a : Operand) (s : State) : Outcome :=
  conditional P iflTest b a s

/-- IFL b, a, in this machine. -/
def execIfl (b a : Operand) (s : State) : Outcome := iflUnder params b a s

/-- IFU b, a (R218). -/
def ifuUnder (P : Params) (b a : Operand) (s : State) : Outcome :=
  conditional P ifuTest b a s

/-- IFU b, a, in this machine. -/
def execIfu (b a : Operand) (s : State) : Outcome := ifuUnder params b a s

end Sys2Proof.Machine
end

