-- ==== Sys2Proof/Machine/Invalid.lean ====
section
/-! DEFINITION. The unassigned opcode values: they latch a fault, a next state of the machine (30_encoding.md R85, R86;
40_dispatch_and_operands.md R102, R109; 60_exceptions.md R310, R311, R313). -/

namespace Sys2Proof.Machine

/-- An unassigned basic opcode, for any values of `INVALID_READS_OPERANDS` and `FAULT_PC`: `data = o` (R310). -/
def faultBasic (reads : Bool) (fp : FaultPc) (o : BitVec 5) (b a : Operand) (s : State) : State :=
  latch fp .invalidOpcode (o.setWidth 16) s.pc (discardBasic reads b a s)

/-- An unassigned special opcode: `data = code` (R311). -/
def faultSpecial (reads : Bool) (fp : FaultPc) (code : BitVec 5) (a : Operand) (s : State) : State :=
  latch fp .invalidSpecialOpcode (code.setWidth 16) s.pc (discardSpecial reads a s)

/-- A basic-format word whose opcode is unassigned (R85, R310). -/
def invalidBasicUnder (P : Params) (o : BitVec 5) (b a : Operand) (s : State) : Outcome :=
  .next (faultBasic P.invalidReadsOperands P.faultPc o b a s)

/-- A basic-format word whose opcode is unassigned, in this machine. -/
def execInvalidBasicOpcode (o : BitVec 5) (b a : Operand) (s : State) : Outcome := invalidBasicUnder params o b a s

/-- A special-format word whose code is unassigned (R86, R311). -/
def invalidSpecialUnder (P : Params) (code : BitVec 5) (a : Operand) (s : State) : Outcome :=
  .next (faultSpecial P.invalidReadsOperands P.faultPc code a s)

/-- A special-format word whose code is unassigned, in this machine. -/
def execInvalidSpecialOpcode (code : BitVec 5) (a : Operand) (s : State) : Outcome := invalidSpecialUnder params code a s

end Sys2Proof.Machine
end

