-- ==== Sys2Proof/Machine/Logic.lean ====
section
/-! DEFINITION. Bitwise logic and shifts: 42_logic_shift.md. -/

namespace Sys2Proof.Machine

/-- AND b, a (R180). -/
def execAnd (b a : Operand) (s : State) : Outcome := .next (compute andResult b a s)

/-- BOR b, a (R181). -/
def execBor (b a : Operand) (s : State) : Outcome := .next (compute borResult b a s)

/-- XOR b, a (R182). -/
def execXor (b a : Operand) (s : State) : Outcome := .next (compute xorResult b a s)

/-- SHR b, a (R184). -/
def shrUnder (P : Params) (b a : Operand) (s : State) : Outcome :=
  .next (computeEx P (fun vb va _ => shrResult vb va) b a s)

/-- SHR b, a, in this machine. -/
def execShr (b a : Operand) (s : State) : Outcome := shrUnder params b a s

/-- ASR b, a (R186). -/
def asrUnder (P : Params) (b a : Operand) (s : State) : Outcome :=
  .next (computeEx P (fun vb va _ => asrResult vb va) b a s)

/-- ASR b, a, in this machine. -/
def execAsr (b a : Operand) (s : State) : Outcome := asrUnder params b a s

/-- SHL b, a (R188). -/
def shlUnder (P : Params) (b a : Operand) (s : State) : Outcome :=
  .next (computeEx P (fun vb va _ => shlResult vb va) b a s)

/-- SHL b, a, in this machine. -/
def execShl (b a : Operand) (s : State) : Outcome := shlUnder params b a s

end Sys2Proof.Machine
end

