-- ==== Sys2Proof/Machine/Special.lean ====
section
/-! DEFINITION. The special instructions in both modes of `SPECIAL_MODE`: 45_special.md. -/

namespace Sys2Proof.Machine

/-- A special instruction: in `NoOp` mode only the PC moves (R261); in `Wired` mode it has its effect (R262). -/
def byMode (mode : SpecialMode) (a : Operand) (wired : State → State) (s : State) : State :=
  match mode with
  | .noOp => s.advance (specialLength a)
  | .wired => wired s

/-- JSR in `Wired` mode (R263): read `a`, push the address after JSR, jump. PRESUMED: log entry 24. -/
def jsrWired (a : Operand) (s : State) : State :=
  let r := readSpecial a s
  { r.2.push r.2.pc with pc := r.1 }

/-- INT in `Wired` mode (R264): a full queue sets ON_FIRE and the instruction completes. -/
def intWired (a : Operand) (s : State) : State :=
  let r := readSpecial a s
  (enqueue r.1 r.2).1

/-- IAG in `Wired` mode (R265): `a` is the destination and is not read. -/
def iagWired (a : Operand) (s : State) : State :=
  let s := s.advance (specialLength a)
  writeOperand a s.ia s

/-- IAS in `Wired` mode (R266). -/
def iasWired (a : Operand) (s : State) : State :=
  let r := readSpecial a s
  { r.2 with ia := r.1 }

/-- RFI in `Wired` mode (R268): `a` is not read. DESIGN CHOICE (the spec's D6): log entry 26. -/
def rfiWired (a : Operand) (s : State) : State := leaveHandler (s.advance (specialLength a))

/-- IAQ in `Wired` mode (R270). DESIGN CHOICE (the spec's D5): log entry 25. -/
def iaqWired (a : Operand) (s : State) : State :=
  let r := readSpecial a s
  { r.2 with queueInterrupts := r.1 != 0 }

/-- JSR a, in the mode of the parameters (R261, R262). -/
def jsrUnder (P : Params) (a : Operand) (s : State) : Outcome :=
  .next (byMode P.specialMode a (jsrWired a) s)

/-- JSR a, in this machine. -/
def execJsr (a : Operand) (s : State) : Outcome := jsrUnder params a s

/-- INT a, in the mode of the parameters (R261, R262). -/
def intUnder (P : Params) (a : Operand) (s : State) : Outcome :=
  .next (byMode P.specialMode a (intWired a) s)

/-- INT a, in this machine. -/
def execInt (a : Operand) (s : State) : Outcome := intUnder params a s

/-- IAG a, in the mode of the parameters (R261, R262). -/
def iagUnder (P : Params) (a : Operand) (s : State) : Outcome :=
  .next (byMode P.specialMode a (iagWired a) s)

/-- IAG a, in this machine. -/
def execIag (a : Operand) (s : State) : Outcome := iagUnder params a s

/-- IAS a, in the mode of the parameters (R261, R262). -/
def iasUnder (P : Params) (a : Operand) (s : State) : Outcome :=
  .next (byMode P.specialMode a (iasWired a) s)

/-- IAS a, in this machine. -/
def execIas (a : Operand) (s : State) : Outcome := iasUnder params a s

/-- RFI a, in the mode of the parameters (R261, R262). -/
def rfiUnder (P : Params) (a : Operand) (s : State) : Outcome :=
  .next (byMode P.specialMode a (rfiWired a) s)

/-- RFI a, in this machine. -/
def execRfi (a : Operand) (s : State) : Outcome := rfiUnder params a s

/-- IAQ a, in the mode of the parameters (R261, R262). -/
def iaqUnder (P : Params) (a : Operand) (s : State) : Outcome :=
  .next (byMode P.specialMode a (iaqWired a) s)

/-- IAQ a, in this machine. -/
def execIaq (a : Operand) (s : State) : Outcome := iaqUnder params a s

/-- HWN a (R272): a no-op in both modes; no operand is read. -/
def execHwn (a : Operand) (s : State) : Outcome := .next (s.advance (specialLength a))

/-- HWQ a (R273): a no-op in both modes. -/
def execHwq (a : Operand) (s : State) : Outcome := .next (s.advance (specialLength a))

/-- HWI a (R274): a no-op in both modes. -/
def execHwi (a : Operand) (s : State) : Outcome := .next (s.advance (specialLength a))

end Sys2Proof.Machine
end

