-- ==== Sys2Proof/Machine/Step.lean ====
section
/-! DEFINITION. One step (40_dispatch_and_operands.md R100 to R104). -/

namespace Sys2Proof.Machine

/-- `Step()` (R101). A halted machine does not change (R100). Otherwise the instruction at the PC runs, and then
the step ends (R104). -/
def step (s : State) : Host.Outcome State Fault Refusal :=
  if s.error.isSome then .next s
  else
    match exec (fetch s).1 s with
    | .next t => .next (endOfStep t)
    | .fault r => .fault r
    | .refused r => .refused r

/-- Put an instruction of the opcode table where the next step fetches it: its words from the PC on (three of them, the
longest instruction). A halted machine fetches nothing, so a latched fault is cleared: log entry 33. -/
def State.withFetchWord (s : State) (nbits w : Nat) : State :=
  let v := w % 2 ^ nbits
  let s := s.store s.pc (BitVec.ofNat 16 v)
  let s := s.store (s.pc + 1) (BitVec.ofNat 16 (v / 2 ^ 16))
  let s := s.store (s.pc + 2) (BitVec.ofNat 16 (v / 2 ^ 32))
  clearError s

end Sys2Proof.Machine
end

