-- ==== Sys2Proof/Machine/Cost.lean ====
section
/-! DEFINITION. Cost accounting: 46_cost.md. A cost is a number that a step returns to the host; no state holds it and no
rule depends on it (R36, R300, R375). Log entries 11 and 12. -/

namespace Sys2Proof.Machine

/-- `BaseCost(ins)` under the default `COST_TABLE`. PRESUMED: log entry 11. -/
def baseCost (i : Instr) : Nat := params.costTable.base i

/-- `Surcharge(ins)` (R294): the operands that took an extra word at decode. -/
def surcharge (i : Instr) : Nat := i.extraWords

/-- How many instructions a conditional skips when it runs at a state: 0 where its test holds (R210). -/
def skippedBy (P : Params) (test : Word → Word → Bool) (b a : Operand) (s : State) : Nat :=
  match conditionalOn P test b a s with
  | some r => r.2
  | none => 0

/-- How many instructions `i` skips when it runs at `s`. -/
def skippedUnder (P : Params) (i : Instr) (s : State) : Nat :=
  match i with
  | .ifb b a => skippedBy P ifbTest b a s
  | .ifc b a => skippedBy P ifcTest b a s
  | .ife b a => skippedBy P ifeTest b a s
  | .ifn b a => skippedBy P ifnTest b a s
  | .ifg b a => skippedBy P ifgTest b a s
  | .ifa b a => skippedBy P ifaTest b a s
  | .ifl b a => skippedBy P iflTest b a s
  | .ifu b a => skippedBy P ifuTest b a s
  | .set _ _ => 0
  | .add _ _ => 0
  | .sub _ _ => 0
  | .mul _ _ => 0
  | .mli _ _ => 0
  | .div _ _ => 0
  | .dvi _ _ => 0
  | .mod _ _ => 0
  | .mdi _ _ => 0
  | .and _ _ => 0
  | .bor _ _ => 0
  | .xor _ _ => 0
  | .shr _ _ => 0
  | .asr _ _ => 0
  | .shl _ _ => 0
  | .adx _ _ => 0
  | .sbx _ _ => 0
  | .sti _ _ => 0
  | .std _ _ => 0
  | .jsr _ => 0
  | .int _ => 0
  | .iag _ => 0
  | .ias _ => 0
  | .rfi _ => 0
  | .iaq _ => 0
  | .hwn _ => 0
  | .hwq _ => 0
  | .hwi _ => 0
  | .invalidBasicOpcode _ _ _ => 0
  | .invalidSpecialOpcode _ _ => 0

/-- How many instructions `i` skips in this machine. -/
abbrev skipped (i : Instr) (s : State) : Nat := skippedUnder params i s

/-- `Cost(ins)` of R295, for any parameters: every instruction skipped after the first adds 1 (R297). -/
def costIn (P : Params) (i : Instr) (s : State) : Nat := P.costTable.base i + surcharge i + (skippedUnder P i s - 1)

/-- `Cost(ins)` in this machine, but for any base costs (R291). -/
def costUnder (table : Instr → Nat) (i : Instr) (s : State) : Nat := table i + surcharge i + (skipped i s - 1)

/-- `Cost(ins)` in this machine. -/
def cost (i : Instr) (s : State) : Nat := costUnder baseCost i s

end Sys2Proof.Machine
end

