-- ==== Sys2Proof/Machine/Report.lean ====
section
/-! DEFINITION. What a step returns to the host (40_dispatch_and_operands.md R103; 46_cost.md R295, R299): no state holds
it. Log entries 12 and 13. -/

namespace Sys2Proof.Machine

/-- What a step returns (R103): a cost, or the one halted signal. -/
inductive StepReturn where
  | cycles (c : Nat)
  | halted
  deriving DecidableEq, Repr

/-- What the step from `s` returns (R103, R295, R299); none where the step has no outcome. -/
def stepReturn (s : State) : Option StepReturn :=
  if s.error.isSome then some .halted
  else
    match exec (fetch s).1 s with
    | .next t => if t.error.isSome then some .halted else some (.cycles (cost (fetch s).1 s))
    | .fault _ => none
    | .refused _ => none

end Sys2Proof.Machine
end

