-- ==== Sys2Proof/Machine/Interface.lean ====
section
/-! DEFINITION. The host's operations between steps (70_reset_and_hazards.md R365): Create and Reset are `State.reset`,
Step is `step` and `stepReturn`, Enqueue and ClearError are the operations of Ops.lean, Inspect is the fields of State
and `Memory.read`. The host writes no register, flag or queue field directly, so no operation here does. -/

namespace Sys2Proof.Machine

/-- Reset (R360): the zero state, memory too, whatever the state was. DESIGN CHOICE (the spec's D27): log entry 28. -/
def hostReset (_ : State) : State := State.reset

/-- `M[k] <- words[k]` for the words of a list, the first at address `base`. -/
def storeWords (base : Nat) : List Word → State → State
  | [], s => s
  | w :: ws, s => storeWords (base + 1) ws (s.store (BitVec.ofNat 16 base) w)

/-- Load (R363): the words from address 0 on. An image of more than 65536 words never reaches the core. -/
def hostLoad (words : List Word) (s : State) : Option State :=
  if words.length ≤ 65536 then some (storeWords 0 words s) else none

/-- The running predicate (R315). -/
def running (s : State) : Bool := s.error.isNone

/-- Error inspection (R315): kind, data and pc of the latched fault. -/
def errorInspection (s : State) : Option (FaultKind × Word × Word) :=
  s.error.map fun e => (e.kind, e.data, e.pc)

/-- Decode view (R91): the descriptors of the instruction at an address, and its length; no state changes. -/
def decodeView (addr : Word) (s : State) : Decoded × Nat :=
  decodeFields fun k => s.mem.read (addr + BitVec.ofNat 16 k)

end Sys2Proof.Machine
end

