-- ==== Sys2Proof/Machine/Parametric.lean ====
section
/-! DEFINITION. The machine as a function of its parameters (00_scope.md R9): `exec`, `step` and `stepReturn` with every one
of the eight as an argument. Laws/Exec.lean and Laws/Step.lean prove that this
machine's own are these at `params` (`exec_eq`, `step_eq`, `stepReturn_eq`). -/

namespace Sys2Proof.Machine

/-- `exec` for any parameters (40_dispatch_and_operands.md R102). SET, MOD, MDI, AND, BOR, XOR, STI, STD, HWN, HWQ and HWI
do not look at them. -/
def execUnder (P : Params) (i : Instr) (s : State) : Outcome :=
  match i with
  | .set b a => execSet b a s
  | .add b a => addUnder P b a s
  | .sub b a => subUnder P b a s
  | .mul b a => mulUnder P b a s
  | .mli b a => mliUnder P b a s
  | .div b a => divUnder P b a s
  | .dvi b a => dviUnder P b a s
  | .mod b a => execMod b a s
  | .mdi b a => execMdi b a s
  | .and b a => execAnd b a s
  | .bor b a => execBor b a s
  | .xor b a => execXor b a s
  | .shr b a => shrUnder P b a s
  | .asr b a => asrUnder P b a s
  | .shl b a => shlUnder P b a s
  | .ifb b a => ifbUnder P b a s
  | .ifc b a => ifcUnder P b a s
  | .ife b a => ifeUnder P b a s
  | .ifn b a => ifnUnder P b a s
  | .ifg b a => ifgUnder P b a s
  | .ifa b a => ifaUnder P b a s
  | .ifl b a => iflUnder P b a s
  | .ifu b a => ifuUnder P b a s
  | .adx b a => adxUnder P b a s
  | .sbx b a => sbxUnder P b a s
  | .sti b a => execSti b a s
  | .std b a => execStd b a s
  | .jsr a => jsrUnder P a s
  | .int a => intUnder P a s
  | .iag a => iagUnder P a s
  | .ias a => iasUnder P a s
  | .rfi a => rfiUnder P a s
  | .iaq a => iaqUnder P a s
  | .hwn a => execHwn a s
  | .hwq a => execHwq a s
  | .hwi a => execHwi a s
  | .invalidBasicOpcode o b a => invalidBasicUnder P o b a s
  | .invalidSpecialOpcode code a => invalidSpecialUnder P code a s

/-- `Step()` for any parameters (R100, R101, R104). -/
def stepUnder (P : Params) (s : State) : Outcome :=
  if s.error.isSome then .next s
  else
    match execUnder P (fetchUnder P.opcodeNumbering s).1 s with
    | .next t => .next (endOfStep t)
    | .fault r => .fault r
    | .refused r => .refused r

/-- What the step from `s` returns, for any parameters (R103, R295, R299). -/
def stepReturnUnder (P : Params) (s : State) : Option StepReturn :=
  if s.error.isSome then some .halted
  else
    match execUnder P (fetchUnder P.opcodeNumbering s).1 s with
    | .next t =>
      if t.error.isSome then some .halted else some (.cycles (costIn P (fetchUnder P.opcodeNumbering s).1 s))
    | .fault _ => none
    | .refused _ => none

end Sys2Proof.Machine
end

