-- ==== Sys2Proof/Safety.lean ====
section
/-! DEFINITION. The terms that claims about the machine use: its invariant, what a frame keeps, the skip protocol as a
relation without fuel, and which instructions the spec lets write EX. -/

namespace Sys2Proof.Machine

/-- What holds of every state a run reaches: memory in its canonical form (log entry 1); at most 256 pending messages
(10_state.md R32); HALTED exactly when a fault is latched (R28); and no fault of the unreachable kind
(60_exceptions.md R312). -/
abbrev State.Inv (s : State) : Prop :=
  s.mem.wf ∧ s.queue.length ≤ queueCapacity ∧ s.halted = s.error.isSome ∧
    s.error.map ErrorRecord.kind ≠ some .invalidArgumentType

/-- IA, the three flags, the queue and the error latch are as before. -/
abbrev KeepsControl (s t : State) : Prop :=
  t.ia = s.ia ∧ t.halted = s.halted ∧ t.onFire = s.onFire ∧ t.queueInterrupts = s.queueInterrupts ∧
    t.queue = s.queue ∧ t.error = s.error

/-- Every word of memory reads as before, but the word stored to (none: every word). -/
abbrev KeepsMemoryBut (stored : Option Word) (s t : State) : Prop :=
  ∀ x, stored ≠ some x → t.mem.read x = s.mem.read x

/-- Every general register is as before, but the one an operand names as a register value. -/
abbrev KeepsRegsBut (b : Operand) (s t : State) : Prop := ∀ r, b ≠ .regVal r → t.reg r = s.reg r

/-- How far a read of an operand moves SP: a pop moves it by one (40_dispatch_and_operands.md R115). -/
def popMove : Operand → Word
  | .pushPop => 1
  | .regVal _ => 0
  | .regInd _ => 0
  | .regOffInd _ _ => 0
  | .peek => 0
  | .pick _ => 0
  | .spReg => 0
  | .pcReg => 0
  | .exReg => 0
  | .absInd _ => 0
  | .absLit _ => 0
  | .inlineLit _ => 0

/-- `Skip()` of 43_conditional.md R221 as a relation: from the unwrapped position `p` the chain ends at the position `e`
with `k` instructions skipped. It has no fuel, so a chain that never ends is related to nothing (R223). -/
inductive SkipRunUnder (num : Numbering) (policy : SkipEndPolicy) (m : Memory) : Nat → Nat → Nat → Prop
  | atTop {p : Nat} : policy = .stopAtTop → 65536 ≤ p → SkipRunUnder num policy m p p 0
  | last {p : Nat} : ¬(policy = .stopAtTop ∧ 65536 ≤ p) →
      (decodeAtUnder num m (BitVec.ofNat 16 p)).1.isConditional = false →
      SkipRunUnder num policy m p (p + (decodeAtUnder num m (BitVec.ofNat 16 p)).2) 1
  | more {p e k : Nat} : ¬(policy = .stopAtTop ∧ 65536 ≤ p) →
      (decodeAtUnder num m (BitVec.ofNat 16 p)).1.isConditional = true →
      SkipRunUnder num policy m (p + (decodeAtUnder num m (BitVec.ofNat 16 p)).2) e k →
      SkipRunUnder num policy m p e (k + 1)

/-- The same under the default numbering. -/
abbrev SkipRun (policy : SkipEndPolicy) (m : Memory) : Nat → Nat → Nat → Prop := SkipRunUnder dcpu16Numbering policy m

end Sys2Proof.Machine

namespace Sys2Proof

/-- The operand an instruction writes its result to, if it has one. -/
def Instr.destination : Instr → Option Operand
  | .set b _ => some b
  | .add b _ => some b
  | .sub b _ => some b
  | .mul b _ => some b
  | .mli b _ => some b
  | .div b _ => some b
  | .dvi b _ => some b
  | .mod b _ => some b
  | .mdi b _ => some b
  | .and b _ => some b
  | .bor b _ => some b
  | .xor b _ => some b
  | .shr b _ => some b
  | .asr b _ => some b
  | .shl b _ => some b
  | .adx b _ => some b
  | .sbx b _ => some b
  | .sti b _ => some b
  | .std b _ => some b
  | .iag a => some a
  | .ifb _ _ => none
  | .ifc _ _ => none
  | .ife _ _ => none
  | .ifn _ _ => none
  | .ifg _ _ => none
  | .ifa _ _ => none
  | .ifl _ _ => none
  | .ifu _ _ => none
  | .jsr _ => none
  | .int _ => none
  | .ias _ => none
  | .rfi _ => none
  | .iaq _ => none
  | .hwn _ => none
  | .hwq _ => none
  | .hwi _ => none
  | .invalidBasicOpcode _ _ _ => none
  | .invalidSpecialOpcode _ _ => none

/-- The instructions that write EX as a side effect (10_state.md R25). -/
def Instr.setsEx : Instr → Bool
  | .add _ _ => true
  | .sub _ _ => true
  | .mul _ _ => true
  | .mli _ _ => true
  | .div _ _ => true
  | .dvi _ _ => true
  | .shr _ _ => true
  | .asr _ _ => true
  | .shl _ _ => true
  | .adx _ _ => true
  | .sbx _ _ => true
  | .set _ _ => false
  | .mod _ _ => false
  | .mdi _ _ => false
  | .and _ _ => false
  | .bor _ _ => false
  | .xor _ _ => false
  | .ifb _ _ => false
  | .ifc _ _ => false
  | .ife _ _ => false
  | .ifn _ _ => false
  | .ifg _ _ => false
  | .ifa _ _ => false
  | .ifl _ _ => false
  | .ifu _ _ => false
  | .sti _ _ => false
  | .std _ _ => false
  | .jsr _ => false
  | .int _ => false
  | .iag _ => false
  | .ias _ => false
  | .rfi _ => false
  | .iaq _ => false
  | .hwn _ => false
  | .hwq _ => false
  | .hwi _ => false
  | .invalidBasicOpcode _ _ _ => false
  | .invalidSpecialOpcode _ _ => false

end Sys2Proof
end

