-- ==== Sys2Proof/Certificates/Slice0/Obligations.lean ====
section
/-! DEFINITION. The statements for the provers. `DESIGN CHOICE`, `PRESUMED` and the spec's own decisions (Dn of
92_eei_decisions.md) that a statement rests on are named in its docstring. -/

open Sys2Proof Sys2Proof.Machine

/-! ## Encoding and decoding -/

/-- 30_encoding.md sections 1 to 3: the words of a well-formed instruction decode back to it, with every operand value,
and the words after it are left. The opcode numbers are PRESUMED (D1, log entry 10). -/
def Obligations.DecodeOfEncodedWords : Prop :=
  ∀ (i : Instr) (rest : List Word), i.wf = true → decodeWords (encode i ++ rest) = .ok (i, rest)

/-- 30_encoding.md sections 1 to 3: whatever words are read, the decoder answers a well-formed instruction whose encoding
is exactly the words it consumed: no word stands for two instructions and none for no instruction. The opcode numbers are
PRESUMED (D1, log entry 10). -/
def Obligations.EncodeOfDecodedWords : Prop :=
  ∀ rd : Nat → Word, (decode rd).1.wf = true ∧ encode (decode rd).1 = (List.range (decode rd).2).map rd

/-- Words of 95_test_vectors.md and of the rules' examples, one or more of each family. The opcode numbers are PRESUMED
(D1, log entry 10). -/
def Obligations.SampleWordsDecode : Prop :=
  decodeWords [0xC401] = .ok (.set (.regVal .a) (.inlineLit 0x10), []) ∧
  decodeWords [0x7C01, 0x0010] = .ok (.set (.regVal .a) (.absLit 0x10), []) ∧
  decodeWords [0x7A22, 0x0200, 0x0005] = .ok (.add (.regOffInd .b 5) (.absInd 0x200), []) ∧
  decodeWords [0x880E] = .ok (.asr (.regVal .a) (.inlineLit 1), []) ∧
  decodeWords [0x6312] = .ok (.ife .pushPop .pushPop, []) ∧
  decodeWords [0x041B] = .ok (.sbx (.regVal .a) (.regVal .b), []) ∧
  decodeWords [0x3DDE] = .ok (.sti (.regInd .i) (.regInd .j), []) ∧
  decodeWords [0x7940, 0x0020] = .ok (.ias (.absInd 0x20), []) ∧
  decodeWords [0x6018] = .ok (.invalidBasicOpcode 0x18 (.regVal .a) .pushPop, []) ∧
  decodeWords [0x6040] = .ok (.invalidSpecialOpcode 0x02 .pushPop, [])

/-- R74, R75, R76: what every field value decodes to, and whether it takes the word at the next position. -/
def Obligations.OperandFieldsDecode : Prop :=
  ∀ (rd : Nat → Word) (n : Nat),
    (∀ k : Fin 32, decodeOperand rd (BitVec.ofNat 6 (0x20 + k)) n = (.inlineLit (BitVec.ofInt 16 ((k : Int) - 1)), n)) ∧
    decodeOperand rd 0x18 n = (.pushPop, n) ∧
    decodeOperand rd 0x19 n = (.peek, n) ∧
    decodeOperand rd 0x1a n = (.pick (rd n), n + 1) ∧
    decodeOperand rd 0x1b n = (.spReg, n) ∧
    decodeOperand rd 0x1c n = (.pcReg, n) ∧
    decodeOperand rd 0x1d n = (.exReg, n) ∧
    decodeOperand rd 0x1e n = (.absInd (rd n), n + 1) ∧
    decodeOperand rd 0x1f n = (.absLit (rd n), n + 1) ∧
    ∀ p ∈ [(0, Reg.a), (1, .b), (2, .c), (3, .x), (4, .y), (5, .z), (6, .i), (7, .j)],
      decodeOperand rd (BitVec.ofNat 6 p.1) n = (.regVal p.2, n) ∧
      decodeOperand rd (BitVec.ofNat 6 (8 + p.1)) n = (.regInd p.2, n) ∧
      decodeOperand rd (BitVec.ofNat 6 (16 + p.1)) n = (.regOffInd p.2 (rd n), n + 1)

/-- 30_encoding.md section 2: the length can be told from the first word alone, by `1 + x(af) + (o ≠ 0 ? x(bf) : 0)`
(the spec marks this formula of its R78 as derived). -/
def Obligations.LengthFromFirstWord : Prop :=
  ∀ rd : Nat → Word,
    let x : BitVec 6 → Nat := fun f =>
      if (0x10 ≤ f.toNat ∧ f.toNat ≤ 0x17) ∨ f = 0x1a ∨ f = 0x1e ∨ f = 0x1f then 1 else 0
    (decode rd).2 = 1 + x (aField (rd 0)) + if opcodeField (rd 0) = 0 then 0 else x ((bField (rd 0)).setWidth 6)

/-- R77, R79: the machine decodes the words at PC, PC + 1 and PC + 2, each address modulo 65536, in that order. -/
def Obligations.FetchReadsTheWordsAtThePc : Prop :=
  ∀ s : State, ∃ rest,
    decodeWords [s.mem.read s.pc, s.mem.read (s.pc + 1), s.mem.read (s.pc + 2)] = .ok ((fetch s).1, rest) ∧
      rest.length + (fetch s).2 = 3

/-! ## The step -/

/-- 40_dispatch_and_operands.md section 1: when the words at the PC are those of a well-formed instruction, a step of a
machine that is not halted is `exec` of that instruction (which moves the PC past it and latches its fault), and then,
unless a fault was latched, one delivery attempt; it returns the instruction's cost, or the halted signal where a fault was
latched. Three choices shape it: no delivery after a fault (DESIGN CHOICE, D37 and 90_conflicts.md C2, log entry 36), one
halted signal (DESIGN CHOICE, D16 and 90_conflicts.md C4, log entry 13), and what of a step `exec` is (DESIGN CHOICE,
log entry 15). The opcode numbers are PRESUMED (D1, log entry 10). -/
def Obligations.StepRunsDecodedInstruction : Prop :=
  ∀ (i : Instr) (s : State), s.error = none → i.wf = true →
    (∀ (k : Nat) (h : k < (encode i).length), s.mem.read (s.pc + BitVec.ofNat 16 k) = (encode i)[k]) →
    step s = (match exec i s with
      | .next t => .next (if t.error.isSome then t else attemptDelivery t)
      | .fault r => .fault r
      | .refused r => .refused r) ∧
    ∀ t, exec i s = .next t → stepReturn s = some (if t.error.isSome then .halted else .cycles (cost i s))

/-- R100: a halted machine does not change, and the step returns the halted signal. -/
def Obligations.HaltedStepChangesNothing : Prop :=
  ∀ s : State, s.error ≠ none → step s = .next s ∧ stepReturn s = some .halted

/-- 40_dispatch_and_operands.md section 1: every step ends, in every state, and returns the halted signal exactly when the
machine is then halted. It rests on `SKIP_END_POLICY = StopAtTop` (D12, log entry 7) and on one halted signal (D16, log
entry 13). -/
def Obligations.StepAlwaysAnswers : Prop :=
  ∀ s : State, ∃ t r, step s = .next t ∧ stepReturn s = some r ∧ (r = .halted ↔ t.error ≠ none)

/-- 60_exceptions.md section 1, with the spec's decision that a faulting step delivers nothing (DESIGN CHOICE, D37 and
90_conflicts.md C2, log entry 36): the PC stays advanced past the instruction, SP moves at most by the pops of the operand
reads, HALTED is set, and nothing else changes: no message leaves the queue, then or while the machine is halted. That a
fault sets HALTED is D17 (log entry 30). -/
def Obligations.FaultingStepDeliversNothing : Prop :=
  ∀ s t : State, step s = .next t → s.error = none → t.error ≠ none →
    t = { s with pc := s.pc + BitVec.ofNat 16 (fetch s).2, sp := t.sp, error := t.error, halted := true } ∧
      (t.sp = s.sp ∨ t.sp = s.sp + 1 ∨ t.sp = s.sp + 2) ∧ step t = .next t

/-- The invariant holds after reset. -/
def Obligations.ResetMeetsInvariant : Prop := State.reset.Inv

/-- From every state with the invariant, whether a run reaches it or not, a step leads to a state with it: memory stays
canonical (log entry 1), at most 256 messages are pending (10_state.md R32), HALTED stands exactly when a fault is latched
(R28, D17), and the fault is never InvalidArgumentType (60_exceptions.md R312, D25). -/
def Obligations.StepKeepsInvariant : Prop := ∀ s t : State, s.Inv → step s = .next t → t.Inv

/-- 10_state.md section 3: no step clears ON_FIRE, and only INT in `Wired` mode with a full queue sets it (the spec's D23,
log entry 35: "sticky: only reset clears it"). That every step answers a next state rests on
`SKIP_END_POLICY = StopAtTop` (D12, log entry 7). -/
def Obligations.OnFireIsNeverCleared : Prop :=
  ∀ s : State, ∃ t, step s = .next t ∧
    (t.onFire = s.onFire ∨
      (t.onFire = true ∧ Config.specialMode = .wired ∧ 256 ≤ s.queue.length ∧ ∃ a, (fetch s).1 = .int a))

/-- 10_state.md section 2: only IAS in `Wired` mode writes IA. That every step answers a next state rests on
`SKIP_END_POLICY = StopAtTop` (D12, log entry 7). -/
def Obligations.IaWrittenOnlyByIas : Prop :=
  ∀ s : State, ∃ t, step s = .next t ∧
    (t.ia = s.ia ∨ (Config.specialMode = .wired ∧ ∃ a, (fetch s).1 = .ias a))

/-- R25: EX is written as a side effect by ADD, SUB, MUL, MLI, DIV, DVI, SHR, ASR, SHL, ADX and SBX, and directly by an
instruction whose destination operand is EX; every other step, delivery included, leaves it unchanged. That every
step answers a next state rests on `SKIP_END_POLICY = StopAtTop` (D12, log entry 7). -/
def Obligations.ExWrittenOnlyWhereNamed : Prop :=
  ∀ s : State, ∃ t, step s = .next t ∧
    (t.ex = s.ex ∨ (fetch s).1.setsEx = true ∨ (fetch s).1.destination = some .exReg)

/-- 10_state.md section 3: once delivery is deferred, only RFI and IAQ in `Wired` mode end that (D23, log entry
35; in `NoOp` mode no instruction clears QUEUE_INTERRUPTS). That every step answers a next state rests on
`SKIP_END_POLICY = StopAtTop` (D12, log entry 7). -/
def Obligations.DeferralEndsOnlyByRfiOrIaq : Prop :=
  ∀ s : State, ∃ t, step s = .next t ∧
    (s.queueInterrupts = true → t.queueInterrupts = true ∨
      (Config.specialMode = .wired ∧ ∃ a, (fetch s).1 = .rfi a ∨ (fetch s).1 = .iaq a))

/-- 60_exceptions.md section 3: in one step at most the front message leaves the queue, and only INT in `Wired` mode adds
one, at the back (the spec marks R332 as derived). That every step answers a next state rests on
`SKIP_END_POLICY = StopAtTop` (D12, log entry 7). -/
def Obligations.QueueMovesByAtMostOneMessage : Prop :=
  ∀ s : State, ∃ t, step s = .next t ∧ ∃ added : List Word,
    (t.queue = s.queue ++ added ∨ t.queue = (s.queue ++ added).tail) ∧
      (added = [] ∨ (Config.specialMode = .wired ∧ added.length = 1 ∧ s.queue.length < 256 ∧
        ∃ a, (fetch s).1 = .int a))

/-! ## Operands -/

/-- R110 to R119, R140: what SET of a register reads from each of the twelve operand forms. The PC read is the advanced
PC (R114), and only POP moves SP (R115 to R117). -/
def Obligations.SetReadsEverySource : Prop :=
  ∀ (s : State) (d r : Reg) (n : Word),
    let put : Word → Word → State := fun k v => { s with pc := s.pc + k, regs := s.regs.set d v }
    exec (.set (.regVal d) (.regVal r)) s = .next (put 1 (s.regs.get r)) ∧
    exec (.set (.regVal d) (.regInd r)) s = .next (put 1 (s.mem.read (s.regs.get r))) ∧
    exec (.set (.regVal d) (.regOffInd r n)) s = .next (put 2 (s.mem.read (s.regs.get r + n))) ∧
    exec (.set (.regVal d) .pushPop) s = .next { put 1 (s.mem.read s.sp) with sp := s.sp + 1 } ∧
    exec (.set (.regVal d) .peek) s = .next (put 1 (s.mem.read s.sp)) ∧
    exec (.set (.regVal d) (.pick n)) s = .next (put 2 (s.mem.read (s.sp + n))) ∧
    exec (.set (.regVal d) .spReg) s = .next (put 1 s.sp) ∧
    exec (.set (.regVal d) .pcReg) s = .next (put 1 (s.pc + 1)) ∧
    exec (.set (.regVal d) .exReg) s = .next (put 1 s.ex) ∧
    exec (.set (.regVal d) (.absInd n)) s = .next (put 2 (s.mem.read n)) ∧
    exec (.set (.regVal d) (.absLit n)) s = .next (put 2 n) ∧
    exec (.set (.regVal d) (.inlineLit n)) s = .next (put 1 n)

/-- 40_dispatch_and_operands.md section 2, with D8 (SET does not read its destination, log entry 23): what SET of a
literal does to each of the twelve destination forms. A literal destination takes nothing. -/
def Obligations.SetWritesEveryDestination : Prop :=
  ∀ (s : State) (r : Reg) (n v : Word),
    let src := Operand.inlineLit v
    exec (.set (.regVal r) src) s = .next { s with pc := s.pc + 1, regs := s.regs.set r v } ∧
    exec (.set (.regInd r) src) s = .next { s with pc := s.pc + 1, mem := s.mem.write (s.regs.get r) v } ∧
    exec (.set (.regOffInd r n) src) s = .next { s with pc := s.pc + 2, mem := s.mem.write (s.regs.get r + n) v } ∧
    exec (.set .pushPop src) s = .next { s with pc := s.pc + 1, sp := s.sp - 1, mem := s.mem.write (s.sp - 1) v } ∧
    exec (.set .peek src) s = .next { s with pc := s.pc + 1, mem := s.mem.write s.sp v } ∧
    exec (.set (.pick n) src) s = .next { s with pc := s.pc + 2, mem := s.mem.write (s.sp + n) v } ∧
    exec (.set .spReg src) s = .next { s with pc := s.pc + 1, sp := v } ∧
    exec (.set .pcReg src) s = .next { s with pc := v } ∧
    exec (.set .exReg src) s = .next { s with pc := s.pc + 1, ex := v } ∧
    exec (.set (.absInd n) src) s = .next { s with pc := s.pc + 2, mem := s.mem.write n v } ∧
    exec (.set (.absLit n) src) s = .next { s with pc := s.pc + 2 } ∧
    exec (.set (.inlineLit n) src) s = .next { s with pc := s.pc + 1 }

/-- R126: the result and EX are written in the order of the parameter, for both values and every operand. -/
def Obligations.WriteResultFollowsOrder : Prop :=
  ∀ (b : Operand) (res exv : Word) (s : State),
    writeResult .resultThenEx b res exv s = { writeOperand b res s with ex := exv } ∧
    writeResult .exThenResult b res exv s = writeOperand b res { s with ex := exv }

/-- 41_arith.md R141 and the source's push-then-pop property (95_test_vectors.md W4), with D8: SET PUSH, a and then
SET r, POP put the value in `r` and leave SP as the read of `a` left it, and every other register alone. -/
def Obligations.PushThenPopRoundTrips : Prop :=
  ∀ (a : Operand) (r : Reg) (s : State), ∃ t u,
    exec (.set .pushPop a) s = .next t ∧ exec (.set (.regVal r) .pushPop) t = .next u ∧
      u.reg r = (readOperand a (s.advance (basicLength .pushPop a))).1 ∧ u.sp = s.sp + popMove a ∧
      KeepsRegsBut (.regVal r) s u

/-! ## Results. `ra` is the read of `a` with the PC past the instruction, `rb` the read of `b` after it (R107). -/

/-- 41_arith.md SET, 44_carry_block.md STI and STD, with D8 (the destination is not read, log entry 23) and D22 (the
cursors are I and J, log entry 20): read `a`, write it to `b`, then move both cursors. -/
def Obligations.AssignmentsReadThenWrite : Prop :=
  ∀ (b a : Operand) (s : State),
    let ra := readOperand a (s.advance (basicLength b a))
    let w := writeOperand b ra.1 ra.2
    exec (.set b a) s = .next w ∧
    exec (.sti b a) s = .next { w with regs := (w.regs.set .i (w.reg .i + 1)).set .j (w.reg .j + 1) } ∧
    exec (.std b a) s = .next { w with regs := (w.regs.set .i (w.reg .i - 1)).set .j (w.reg .j - 1) }

/-- R142: the sum modulo 65536, and EX is 1 exactly when the sum is 65536 or more. -/
def Obligations.AddResultAndCarry : Prop :=
  ∀ (b a : Operand) (s : State),
    let ra := readOperand a (s.advance (basicLength b a))
    let rb := readOperand b ra.2
    exec (.add b a) s = .next (writeResult Config.exWriteOrder b (rb.1 + ra.1)
      (if 65536 ≤ rb.1.toNat + ra.1.toNat then 1 else 0) rb.2)

/-- R144: the difference modulo 65536, and EX is 0xFFFF on a borrow, else 0. -/
def Obligations.SubResultAndBorrow : Prop :=
  ∀ (b a : Operand) (s : State),
    let ra := readOperand a (s.advance (basicLength b a))
    let rb := readOperand b ra.2
    exec (.sub b a) s = .next (writeResult Config.exWriteOrder b (rb.1 - ra.1)
      (if rb.1.toNat < ra.1.toNat then 0xFFFF else 0) rb.2)

/-- R146, R148: the low half of the product, and in EX the high half of the 32-bit product, unsigned for MUL and signed
for MLI. -/
def Obligations.ProductsSplitIntoHalves : Prop :=
  ∀ (b a : Operand) (s : State),
    let ra := readOperand a (s.advance (basicLength b a))
    let rb := readOperand b ra.2
    let u : BitVec 32 := rb.1.setWidth 32 * ra.1.setWidth 32
    let v : BitVec 32 := rb.1.signExtend 32 * ra.1.signExtend 32
    exec (.mul b a) s = .next (writeResult Config.exWriteOrder b (u.extractLsb' 0 16) (u.extractLsb' 16 16) rb.2) ∧
    exec (.mli b a) s = .next (writeResult Config.exWriteOrder b (v.extractLsb' 0 16) (v.extractLsb' 16 16) rb.2)

/-- R150: quotient and scaled fraction, both 0 for a zero divisor, never a fault. -/
def Obligations.DivResultAndFraction : Prop :=
  ∀ (b a : Operand) (s : State),
    let ra := readOperand a (s.advance (basicLength b a))
    let rb := readOperand b ra.2
    exec (.div b a) s = .next (if ra.1 = 0 then writeResult Config.exWriteOrder b 0 0 rb.2
      else writeResult Config.exWriteOrder b (rb.1 / ra.1)
        (BitVec.ofNat 16 (rb.1.toNat * 65536 / ra.1.toNat)) rb.2)

/-- 41_arith.md DVI and MDI, with D11 (log entry 22): both truncate toward zero. `BitVec.sdiv` and `BitVec.srem` are the
truncating division and remainder; the EX of DVI is the scaled quotient of 33-bit words, where −32768 / −1 does not
overflow. -/
def Obligations.SignedDivisionTruncates : Prop :=
  ∀ (b a : Operand) (s : State),
    let ra := readOperand a (s.advance (basicLength b a))
    let rb := readOperand b ra.2
    let scaled : BitVec 33 := rb.1.signExtend 33 <<< 16
    exec (.dvi b a) s = .next (if ra.1 = 0 then writeResult Config.exWriteOrder b 0 0 rb.2
      else writeResult Config.exWriteOrder b (rb.1.sdiv ra.1)
        ((scaled.sdiv (ra.1.signExtend 33)).extractLsb' 0 16) rb.2) ∧
    exec (.mdi b a) s = .next (writeOperand b (if ra.1 = 0 then 0 else rb.1.srem ra.1) rb.2)

/-- R154: the remainder, 0 for a zero divisor, and EX is not written. -/
def Obligations.ModResult : Prop :=
  ∀ (b a : Operand) (s : State),
    let ra := readOperand a (s.advance (basicLength b a))
    let rb := readOperand b ra.2
    exec (.mod b a) s = .next (writeOperand b (if ra.1 = 0 then 0 else rb.1 % ra.1) rb.2)

/-- R180, R181, R182: bit by bit, and EX is not written. -/
def Obligations.LogicIsBitwise : Prop :=
  ∀ (b a : Operand) (s : State),
    let ra := readOperand a (s.advance (basicLength b a))
    let rb := readOperand b ra.2
    (∃ w, exec (.and b a) s = .next (writeOperand b w rb.2) ∧
      ∀ k, w.getLsbD k = (rb.1.getLsbD k && ra.1.getLsbD k)) ∧
    (∃ w, exec (.bor b a) s = .next (writeOperand b w rb.2) ∧
      ∀ k, w.getLsbD k = (rb.1.getLsbD k || ra.1.getLsbD k)) ∧
    (∃ w, exec (.xor b a) s = .next (writeOperand b w rb.2) ∧
      ∀ k, w.getLsbD k = (rb.1.getLsbD k ^^ ra.1.getLsbD k))

/-- 42_logic_shift.md SHR, ASR and SHL, with D10 (the amount is the whole of `a`, log entry 21): SHR and SHL write
the two halves of a 32-bit shift, one to `b` and the other to EX. ASR's result is no such half: it shifts the sign in; only
its EX is a half, that of SHR. -/
def Obligations.ShiftsByTheWholeAmount : Prop :=
  ∀ (b a : Operand) (s : State),
    let ra := readOperand a (s.advance (basicLength b a))
    let rb := readOperand b ra.2
    let right : BitVec 32 := (rb.1.setWidth 32 <<< 16) >>> ra.1.toNat
    let left : BitVec 32 := rb.1.setWidth 32 <<< ra.1.toNat
    exec (.shr b a) s =
      .next (writeResult Config.exWriteOrder b (right.extractLsb' 16 16) (right.extractLsb' 0 16) rb.2) ∧
    exec (.asr b a) s =
      .next (writeResult Config.exWriteOrder b (rb.1.sshiftRight ra.1.toNat) (right.extractLsb' 0 16) rb.2) ∧
    exec (.shl b a) s =
      .next (writeResult Config.exWriteOrder b (left.extractLsb' 0 16) (left.extractLsb' 16 16) rb.2)

/-- R240, R127: the sum with EX, and EX counts the carries: 0, 1 or 2. -/
def Obligations.AdxResultAndCarries : Prop :=
  ∀ (b a : Operand) (s : State),
    let ra := readOperand a (s.advance (basicLength b a))
    let rb := readOperand b ra.2
    let sum := rb.1.toNat + ra.1.toNat + s.ex.toNat
    exec (.adx b a) s = .next (writeResult Config.exWriteOrder b (rb.1 + ra.1 + s.ex)
      (if 131072 ≤ sum then 2 else if 65536 ≤ sum then 1 else 0) rb.2)

/-- 44_carry_block.md SBX: the machine subtracts EX (`SBX_EX_SIGN = Minus`, D30, log entry 6), and EX is 0, 0xFFFF or
0xFFFE as none, one or two borrows are needed; under `Plus` EX is added, and the EX value is 0xFFFF, 0 or 1. -/
def Obligations.SbxResultUnderBothSigns : Prop :=
  ∀ (b a : Operand) (s : State),
    let ra := readOperand a (s.advance (basicLength b a))
    let rb := readOperand b ra.2
    exec (.sbx b a) s = .next (subtractWithEx .minus b a s) ∧
    subtractWithEx .minus b a s = writeResult Config.exWriteOrder b (rb.1 - ra.1 - s.ex)
      (if ra.1.toNat + s.ex.toNat ≤ rb.1.toNat then 0
        else if ra.1.toNat + s.ex.toNat ≤ rb.1.toNat + 65536 then 0xFFFF else 0xFFFE) rb.2 ∧
    subtractWithEx .plus b a s = writeResult Config.exWriteOrder b (rb.1 - ra.1 + s.ex)
      (if rb.1.toNat + s.ex.toNat < ra.1.toNat then 0xFFFF
        else if rb.1.toNat + s.ex.toNat < ra.1.toNat + 65536 then 0 else 1) rb.2

/-! ## Conditionals -/

/-- R210 to R219: each of the eight tests, and that a conditional whose test holds only reads its operands. -/
def Obligations.HoldingConditionalOnlyReads : Prop :=
  ∀ (b a : Operand) (s : State),
    let ra := readOperand a (s.advance (basicLength b a))
    let rb := readOperand b ra.2
    ∀ p ∈ [(Instr.ifb b a, rb.1 &&& ra.1 != 0), (.ifc b a, rb.1 &&& ra.1 == 0), (.ife b a, rb.1 == ra.1),
        (.ifn b a, rb.1 != ra.1), (.ifg b a, ra.1.ult rb.1), (.ifa b a, ra.1.slt rb.1), (.ifl b a, rb.1.ult ra.1),
        (.ifu b a, rb.1.slt ra.1)],
      p.2 = true → exec p.1 s = .next rb.2

/-- 43_conditional.md section 2: a conditional whose test fails completes too; the PC goes to the end of the skip chain
that starts after it, and `skipped` is the chain's count. It rests on `SKIP_END_POLICY = StopAtTop` (D12, log entry 7) and
on D13 (skipped words are only decoded, log entry 29). -/
def Obligations.FailingConditionalSkipsItsChain : Prop :=
  ∀ (b a : Operand) (s : State),
    let ra := readOperand a (s.advance (basicLength b a))
    let rb := readOperand b ra.2
    ∀ p ∈ [(Instr.ifb b a, rb.1 &&& ra.1 != 0), (.ifc b a, rb.1 &&& ra.1 == 0), (.ife b a, rb.1 == ra.1),
        (.ifn b a, rb.1 != ra.1), (.ifg b a, ra.1.ult rb.1), (.ifa b a, ra.1.slt rb.1), (.ifl b a, rb.1.ult ra.1),
        (.ifu b a, rb.1.slt ra.1)],
      p.2 = false → ∃ e k, SkipRun .stopAtTop s.mem (s.pc.toNat + basicLength b a) e k ∧
        exec p.1 s = .next { rb.2 with pc := BitVec.ofNat 16 e } ∧ skipped p.1 s = k

/-- R221: a failing conditional followed, before the top of memory, by a non-conditional instruction skips exactly that
one, whatever its length, and only decodes it (D13, log entry 29). Said of IFE; the other seven share its protocol. -/
def Obligations.NextNonConditionalIsSkippedAlone : Prop :=
  ∀ (b a : Operand) (s : State),
    let n := basicLength b a
    let ra := readOperand a (s.advance n)
    let rb := readOperand b ra.2
    let next := decodeAt s.mem (s.pc + BitVec.ofNat 16 n)
    rb.1 ≠ ra.1 → s.pc.toNat + n < 65536 → next.1.isConditional = false →
      exec (.ife b a) s = .next { rb.2 with pc := s.pc + BitVec.ofNat 16 (n + next.2) } ∧ skipped (.ife b a) s = 1

/-- 43_conditional.md section 2 (`SKIP_END_POLICY = Wrap`, D12): with positions wrapping and no stop at the top, the model
answers every chain that ends, with its end and count, and gives no outcome exactly where the chain never ends. -/
def Obligations.WrapSkipAnswersExactlyTheEndingChains : Prop :=
  ∀ (m : Memory) (start : Word) (n e k : Nat),
    skipChain .wrap m start n = some (e, k) ↔ SkipRun .wrap m (start.toNat + n) e k

/-! ## Special instructions, in either mode -/

/-- 45_special.md JSR, with D4 (PRESUMED, log entry 24). -/
def Obligations.JsrPushesTheReturnAddress : Prop :=
  ∀ (a : Operand) (s : State),
    let s1 := s.advance (specialLength a)
    let ra := readOperand a s1
    exec (.jsr a) s = .next (match Config.specialMode with
      | .noOp => s1
      | .wired => { ra.2 with sp := ra.2.sp - 1, mem := ra.2.mem.write (ra.2.sp - 1) s1.pc, pc := ra.1 })

/-- R261, R262: in `Wired` mode INT enqueues the value of its operand (a full queue sets ON_FIRE, and the instruction
completes), and IAS sets IA; in `NoOp` mode only the PC moves. -/
def Obligations.IntEnqueuesAndIasSetsIa : Prop :=
  ∀ (a : Operand) (s : State),
    let s1 := s.advance (specialLength a)
    let ra := readOperand a s1
    exec (.int a) s = .next (match Config.specialMode with
      | .noOp => s1
      | .wired => if 256 ≤ s.queue.length then { ra.2 with onFire := true }
          else { ra.2 with queue := s.queue ++ [ra.1] }) ∧
    exec (.ias a) s = .next (match Config.specialMode with
      | .noOp => s1
      | .wired => { ra.2 with ia := ra.1 })

/-- 45_special.md IAG, RFI and IAQ, with D8 (IAG's destination is not read), D6 (RFI's operand is not read) and D5 (IAQ
sets the flag to `a ≠ 0`): log entries 23, 26, 25. -/
def Obligations.IagRfiAndIaqInEitherMode : Prop :=
  ∀ (a : Operand) (s : State),
    let s1 := s.advance (specialLength a)
    let ra := readOperand a s1
    exec (.iag a) s = .next (match Config.specialMode with
      | .noOp => s1
      | .wired => writeOperand a s.ia s1) ∧
    exec (.rfi a) s = .next (match Config.specialMode with
      | .noOp => s1
      | .wired => { s with
          regs := s.regs.set .a (s.mem.read s.sp), pc := s.mem.read (s.sp + 1), sp := s.sp + 2,
          queueInterrupts := false }) ∧
    exec (.iaq a) s = .next (match Config.specialMode with
      | .noOp => s1
      | .wired => { ra.2 with queueInterrupts := decide (ra.1 ≠ 0) })

/-- 45_special.md HWN, HWQ and HWI, with D7 (log entry 27): in both modes the PC moves past the instruction and nothing
else changes; no operand is read. -/
def Obligations.HardwareInstructionsOnlyMoveThePc : Prop :=
  ∀ (a : Operand) (s : State), ∀ i ∈ [Instr.hwn a, .hwq a, .hwi a],
    exec i s = .next { s with pc := s.pc + BitVec.ofNat 16 (1 + a.extraWords) }

/-! ## Faults -/

/-- 40_dispatch_and_operands.md section 1 and 60_exceptions.md section 1: for every value of `INVALID_READS_OPERANDS` (D15,
log entry 9) and `FAULT_PC` (D14, log entry 8), the fault of an unassigned opcode records its kind, the opcode value, the
PC that the parameter names and the implementation's text (DESIGN CHOICE, log entry 3), and sets HALTED (D17, log entry
30); the PC stays advanced and SP keeps the pops of the reads. -/
def Obligations.InvalidOpcodeFaultUnderEveryParameter : Prop :=
  ∀ (reads : Bool) (fp : FaultPc) (o : BitVec 5) (b a : Operand) (s : State),
    let pcB := s.pc + BitVec.ofNat 16 (basicLength b a)
    let pcS := s.pc + BitVec.ofNat 16 (specialLength a)
    faultBasic reads fp o b a s = { s with
      pc := pcB, sp := if reads then s.sp + popMove a + popMove b else s.sp, halted := true,
      error := some (faultRecord .invalidOpcode (BitVec.ofNat 16 o.toNat) (if fp = .instrStart then s.pc else pcB)) } ∧
    faultSpecial reads fp o a s = { s with
      pc := pcS, sp := if reads then s.sp + popMove a else s.sp, halted := true,
      error := some (faultRecord .invalidSpecialOpcode (BitVec.ofNat 16 o.toNat) (if fp = .instrStart then s.pc else pcS)) }

/-- 30_encoding.md section 3, 60_exceptions.md section 1: the fault the machine takes on an unassigned opcode, at the
defaults `FAULT_PC = InstrStart` (D14, log entry 8) and `INVALID_READS_OPERANDS = true` (D15, log entry 9). That the fault
sets HALTED is D17 (log entry 30), and that the record's text is a function of its kind, data and pc is a DESIGN CHOICE
(log entry 3). -/
def Obligations.InvalidOpcodeHaltsTheMachine : Prop :=
  ∀ (o : BitVec 5) (b a : Operand) (s : State),
    exec (.invalidBasicOpcode o b a) s = .next { s with
      pc := s.pc + BitVec.ofNat 16 (basicLength b a), sp := s.sp + popMove a + popMove b, halted := true,
      error := some (faultRecord .invalidOpcode (BitVec.ofNat 16 o.toNat) s.pc) } ∧
    exec (.invalidSpecialOpcode o a) s = .next { s with
      pc := s.pc + BitVec.ofNat 16 (specialLength a), sp := s.sp + popMove a, halted := true,
      error := some (faultRecord .invalidSpecialOpcode (BitVec.ofNat 16 o.toNat) s.pc) }

/-- 60_exceptions.md section 1, with D17 and D28 (log entry 30): ClearError empties the error latch and clears HALTED,
changes nothing else, and the next step runs the instruction at the PC. That a step that faults makes no delivery attempt
is D37 (90_conflicts.md C2, log entry 36), and that the instruction always answers rests on `SKIP_END_POLICY = StopAtTop`
(D12, log entry 7). -/
def Obligations.ClearErrorResumesAtThePc : Prop :=
  ∀ s : State, clearError s = { s with error := none, halted := false } ∧
    ∃ u, exec (fetch s).1 (clearError s) = .next u ∧
      step (clearError s) = .next (if u.error.isSome then u else attemptDelivery u)

/-! ## Frames: what a next state keeps -/

/-- The eleven instructions that write a result and EX: every register but the destination, SP but for pops (and a
destination SP), the PC past the instruction (unless it is the destination), the control state, and every memory word but
the one the destination names in the state after both reads. EX is written (R25). -/
def Obligations.ResultAndExFrame : Prop :=
  ∀ (b a : Operand) (s : State), ∀ i ∈ [Instr.add b a, .sub b a, .mul b a, .mli b a, .div b a, .dvi b a, .shr b a,
      .asr b a, .shl b a, .adx b a, .sbx b a], ∃ t, exec i s = .next t ∧
    KeepsRegsBut b s t ∧ KeepsControl s t ∧
    (b ≠ .spReg → t.sp = s.sp + popMove a) ∧
    (b ≠ .pcReg → t.pc = s.pc + BitVec.ofNat 16 (basicLength b a)) ∧
    KeepsMemoryBut (storeAddress b (readBoth b a s).after) s t

/-- The five instructions that write a result and no EX: as above, and EX is unchanged unless it is the destination. -/
def Obligations.ResultFrame : Prop :=
  ∀ (b a : Operand) (s : State), ∀ i ∈ [Instr.mod b a, .mdi b a, .and b a, .bor b a, .xor b a], ∃ t, exec i s = .next t ∧
    KeepsRegsBut b s t ∧ KeepsControl s t ∧
    (b ≠ .spReg → t.sp = s.sp + popMove a) ∧
    (b ≠ .pcReg → t.pc = s.pc + BitVec.ofNat 16 (basicLength b a)) ∧
    (b ≠ .exReg → t.ex = s.ex) ∧
    KeepsMemoryBut (storeAddress b (readBoth b a s).after) s t

/-- SET, STI and STD: a destination PUSH moves SP down (D8: it is not read, log entry 23), the destination's address is
taken in the state after `a` was read, and STI and STD also write I and J (D22, log entry 20). -/
def Obligations.AssignmentFrame : Prop :=
  ∀ (b a : Operand) (s : State), ∀ i ∈ [Instr.set b a, .sti b a, .std b a], ∃ t, exec i s = .next t ∧
    (∀ r, b ≠ .regVal r → (i = .set b a ∨ (r ≠ .i ∧ r ≠ .j)) → t.reg r = s.reg r) ∧ KeepsControl s t ∧
    (b ≠ .spReg → t.sp = s.sp + popMove a - popMove b) ∧
    (b ≠ .pcReg → t.pc = s.pc + BitVec.ofNat 16 (basicLength b a)) ∧
    (b ≠ .exReg → t.ex = s.ex) ∧
    KeepsMemoryBut (storeAddress b (readA b a s).2) s t

/-- R210: a conditional writes nothing, whether its test holds or fails: only the PC, and SP by the pops of its own
operands, can change. That a failing test always completes rests on `SKIP_END_POLICY = StopAtTop` (D12, log entry 7), and
that it latches no fault where its skip passes an unassigned opcode is D13 (DESIGN CHOICE, log entry 29). -/
def Obligations.ConditionalFrame : Prop :=
  ∀ (b a : Operand) (s : State), ∀ i ∈ [Instr.ifb b a, .ifc b a, .ife b a, .ifn b a, .ifg b a, .ifa b a, .ifl b a,
      .ifu b a], ∃ p, exec i s = .next { s with pc := p, sp := s.sp + popMove a + popMove b }

/-- 45_special.md: what JSR, INT, IAG, IAS, RFI and IAQ keep, in either mode. JSR stores at the SP it leaves, IAG at its
destination operand's address after the PC's advance, the others nowhere; INT writes the queue or ON_FIRE, IAS writes IA,
RFI writes A and clears QUEUE_INTERRUPTS, IAQ writes QUEUE_INTERRUPTS; EX only IAG EX writes; SP keeps the pops of the
reads, and RFI's two. -/
def Obligations.SpecialFrame : Prop :=
  ∀ (a : Operand) (s : State),
    let keepsAllMemory : State → Prop := fun t => ∀ x, t.mem.read x = s.mem.read x
    let wired : Word → Word := fun d => if Config.specialMode = .wired then d else 0
    (∃ t, exec (.jsr a) s = .next t ∧ t.regs = s.regs ∧ t.ex = s.ex ∧ KeepsControl s t ∧
      (Config.specialMode = .noOp ∧ t.sp = s.sp ∧ keepsAllMemory t ∨
        Config.specialMode = .wired ∧ t.sp = s.sp + popMove a - 1 ∧
          KeepsMemoryBut (some (s.sp + popMove a - 1)) s t)) ∧
    (∃ t, exec (.int a) s = .next t ∧ t.regs = s.regs ∧ t.ex = s.ex ∧ t.sp = s.sp + wired (popMove a) ∧
      t.ia = s.ia ∧ t.halted = s.halted ∧ t.queueInterrupts = s.queueInterrupts ∧ t.error = s.error ∧
      keepsAllMemory t) ∧
    (∃ t, exec (.iag a) s = .next t ∧ KeepsRegsBut a s t ∧ KeepsControl s t ∧
      (a ≠ .spReg → a ≠ .pushPop → t.sp = s.sp) ∧ (a ≠ .exReg → t.ex = s.ex) ∧
      (a ≠ .pcReg → t.pc = s.pc + BitVec.ofNat 16 (specialLength a)) ∧
      KeepsMemoryBut (storeAddress a (s.advance (specialLength a))) s t) ∧
    (∃ t, exec (.ias a) s = .next t ∧ t.regs = s.regs ∧ t.ex = s.ex ∧
      t.sp = s.sp + wired (popMove a) ∧ KeepsControl { s with ia := t.ia } t ∧
      keepsAllMemory t) ∧
    (∃ t, exec (.rfi a) s = .next t ∧ (∀ r, r ≠ .a → t.reg r = s.reg r) ∧ t.ex = s.ex ∧
      t.sp = s.sp + wired 2 ∧ KeepsControl { s with queueInterrupts := t.queueInterrupts } t ∧ keepsAllMemory t) ∧
    (∃ t, exec (.iaq a) s = .next t ∧ t.regs = s.regs ∧ t.ex = s.ex ∧
      t.sp = s.sp + wired (popMove a) ∧ KeepsControl { s with queueInterrupts := t.queueInterrupts } t ∧ keepsAllMemory t)

/-! ## The interrupt controller -/

/-- R322: a full queue sets ON_FIRE, stores nothing and reports failure; otherwise the message goes to the back. -/
def Obligations.EnqueueStoresOrSetsOnFire : Prop :=
  ∀ (m : Word) (s : State),
    enqueue m s = if 256 ≤ s.queue.length then ({ s with onFire := true }, false)
      else ({ s with queue := s.queue ++ [m] }, true)

/-- R336, R322: any sequence of enqueues leaves the first 256 pending messages in order, and ON_FIRE is set exactly when
one did not fit; nothing else changes. -/
def Obligations.EnqueuingASequenceKeepsTheFirst256 : Prop :=
  ∀ (ms : List Word) (s : State), s.queue.length ≤ 256 →
    ms.foldl (fun t m => (enqueue m t).1) s =
      { s with queue := (s.queue ++ ms).take 256, onFire := s.onFire || decide (256 < s.queue.length + ms.length) }

/-- R328, R329, R330: delivery waits while QUEUE_INTERRUPTS is set or the queue is empty, and with IA = 0 the front
message is dropped and nothing else changes. -/
def Obligations.DeliveryWaitsOrDrops : Prop :=
  ∀ (s : State) (m : Word) (q : List Word),
    attemptDelivery { s with queueInterrupts := true } = { s with queueInterrupts := true } ∧
    attemptDelivery { s with queue := [] } = { s with queue := [] } ∧
    attemptDelivery { s with queueInterrupts := false, queue := m :: q, ia := 0 } =
      { s with queueInterrupts := false, queue := q, ia := 0 }

/-- R331, R333: delivery takes the front message, sets QUEUE_INTERRUPTS, pushes PC and then A, sets A to the message and
jumps to IA; it changes nothing else. -/
def Obligations.DeliveryEntersTheHandler : Prop :=
  ∀ (s : State) (m : Word) (q : List Word), s.queueInterrupts = false → s.queue = m :: q → s.ia ≠ 0 →
    let t := attemptDelivery s
    t.pc = s.ia ∧ t.reg .a = m ∧ t.sp = s.sp - 2 ∧ t.mem.read (s.sp - 1) = s.pc ∧ t.mem.read t.sp = s.reg .a ∧
      t.queueInterrupts = true ∧ t.queue = q ∧
      (∀ x, x ≠ s.sp - 1 → x ≠ s.sp - 2 → t.mem.read x = s.mem.read x) ∧ (∀ r, r ≠ .a → t.reg r = s.reg r) ∧
      t.ex = s.ex ∧ t.ia = s.ia ∧ t.onFire = s.onFire ∧ t.halted = s.halted ∧ t.error = s.error

/-- R331 on a whole step: after an instruction that latched no fault, with delivery not deferred, a message pending and
IA not 0, the step ends in the handler, with the PC and the A that the instruction left on the stack. -/
def Obligations.StepDeliversTheFrontMessage : Prop :=
  ∀ (s u : State) (m : Word) (q : List Word), s.error = none → exec (fetch s).1 s = .next u → u.error = none →
    u.queueInterrupts = false → u.queue = m :: q → u.ia ≠ 0 → ∃ t, step s = .next t ∧
      t.pc = u.ia ∧ t.reg .a = m ∧ t.sp = u.sp - 2 ∧ t.mem.read (u.sp - 1) = u.pc ∧ t.mem.read (u.sp - 2) = u.reg .a ∧
      t.queueInterrupts = true ∧ t.queue = q

/-- 60_exceptions.md section 4: RFI (wired, whatever its operand, which it does not read: D6, log entry 26) undoes what
delivery did: registers, PC, SP and QUEUE_INTERRUPTS are as before it; the message is gone and the frame stays in
memory. -/
def Obligations.RfiUndoesDelivery : Prop :=
  ∀ (a : Operand) (s : State) (m : Word) (q : List Word),
    s.queueInterrupts = false → s.queue = m :: q → s.ia ≠ 0 →
      rfiWired a (attemptDelivery s) = { s with queue := q, mem := (attemptDelivery s).mem }

/-! ## Memory, reset, load, cost -/

/-- Log entry 1: two canonical memories that read alike at every address are one list. -/
def Obligations.CanonicalMemoriesThatReadAlikeAreEqual : Prop :=
  ∀ m m' : Memory, m.wf → m'.wf → (∀ x : Word, m.read x = m'.read x) → m = m'

/-- 10_state.md section 6: after reset every register, flag and memory word is zero, the queue and the error latch are
empty (that PC, SP, EX, IA and the flags are zero is the spec's D31, log entry 18). -/
def Obligations.ResetIsTheZeroState : Prop :=
  (∀ r, State.reset.reg r = 0) ∧ (∀ x, State.reset.mem.read x = 0) ∧ State.reset.pc = 0 ∧ State.reset.sp = 0 ∧
    State.reset.ex = 0 ∧ State.reset.ia = 0 ∧ State.reset.halted = false ∧ State.reset.onFire = false ∧
    State.reset.queueInterrupts = false ∧ State.reset.queue = [] ∧ State.reset.error = none

/-- R363: Load writes `words[k]` to `M[k]` from address 0 on and changes nothing else; an image of more than 65536 words
never reaches the core. -/
def Obligations.LoadPlacesTheImageFromAddressZero : Prop :=
  ∀ (words : List Word) (s : State),
    (words.length ≤ 65536 → ∃ t, hostLoad words s = some t ∧ t = { s with mem := t.mem } ∧
      (∀ (k : Nat) (h : k < words.length), t.mem.read (BitVec.ofNat 16 k) = words[k]) ∧
      ∀ x : Word, words.length ≤ x.toNat → t.mem.read x = s.mem.read x) ∧
    (65536 < words.length → hostLoad words s = none)

/-- 46_cost.md: under any `COST_TABLE`, the cost is the base cost, one for each operand with an extra word, and for a
failing conditional one for each instruction that its chain skips after the first, whatever their lengths. The chain is
that of `SKIP_END_POLICY = StopAtTop` (D12, log entry 7). -/
def Obligations.CostIsBaseSurchargeAndSkips : Prop :=
  ∀ (table : Instr → Nat) (i : Instr) (b a : Operand) (s : State),
    let ra := readOperand a (s.advance (basicLength b a))
    let rb := readOperand b ra.2
    (i.isConditional = false → costUnder table i s = table i + i.view.extraWords) ∧
    ∀ p ∈ [(Instr.ifb b a, rb.1 &&& ra.1 != 0), (.ifc b a, rb.1 &&& ra.1 == 0), (.ife b a, rb.1 == ra.1),
        (.ifn b a, rb.1 != ra.1), (.ifg b a, ra.1.ult rb.1), (.ifa b a, ra.1.slt rb.1), (.ifl b a, rb.1.ult ra.1),
        (.ifu b a, rb.1.slt ra.1)],
      (p.2 = true → costUnder table p.1 s = table p.1 + (a.extraWords + b.extraWords)) ∧
      ∀ e k, p.2 = false → SkipRun .stopAtTop s.mem (s.pc.toNat + basicLength b a) e k →
        costUnder table p.1 s = table p.1 + (a.extraWords + b.extraWords) + (k - 1)

/-- Machine/Step.lean: the word placed by `withFetchWord` is the instruction that the next step fetches, and nothing else
of a machine that is not halted changes but memory. The opcode numbers are PRESUMED (D1, log entry 10). -/
def Obligations.WithFetchWordIsFetched : Prop :=
  ∀ (s : State) (nbits w : Nat),
    decodeTableWord nbits w = some (fetch (s.withFetchWord nbits w)).1 ∧
      s.withFetchWord nbits w = { s with mem := (s.withFetchWord nbits w).mem, error := none, halted := false }

/-! ## Every parameter -/

/-- 00_scope.md R9: under every value of the eight parameters, and from every state with the invariant, a step leads to a
state with it, or answers the model's fault `skipNeverEnds` and returns nothing, which only a conditional under
`SKIP_END_POLICY = Wrap` does (43_conditional.md section 2, D12, log entry 7). Whether the chain then has no end is not
said here; `WrapSkipAnswersExactlyTheEndingChains` says it of the default numbering. This machine's `step` and `stepReturn` are the case of its own parameters. The invariant is that of
`StepKeepsInvariant` (log entries 1, 2, 30, 37). -/
def Obligations.EveryParameterKeepsInvariant : Prop :=
  (∀ (P : Params) (s : State), s.Inv →
    (∃ t, stepUnder P s = .next t ∧ t.Inv) ∨
      (P.skipEndPolicy = .wrap ∧ (fetchUnder P.opcodeNumbering s).1.isConditional = true ∧
        stepUnder P s = .fault .skipNeverEnds ∧ stepReturnUnder P s = none)) ∧
  ∀ s : State, step s = stepUnder params s ∧ stepReturn s = stepReturnUnder params s
end

