-- ==== Sys2Proof/Laws/State.lean ====
section
/-! SUPPORT. What each update of State does to each field, once, so that no proof unfolds a record update. -/

namespace Sys2Proof.Machine

/-! ## setReg -/

@[simp] theorem setReg_regs (s : State) (r : Reg) (v : Word) : (s.setReg r v).regs = s.regs.set r v := rfl
@[simp] theorem setReg_pc (s : State) (r : Reg) (v : Word) : (s.setReg r v).pc = s.pc := rfl
@[simp] theorem setReg_sp (s : State) (r : Reg) (v : Word) : (s.setReg r v).sp = s.sp := rfl
@[simp] theorem setReg_ex (s : State) (r : Reg) (v : Word) : (s.setReg r v).ex = s.ex := rfl
@[simp] theorem setReg_ia (s : State) (r : Reg) (v : Word) : (s.setReg r v).ia = s.ia := rfl
@[simp] theorem setReg_mem (s : State) (r : Reg) (v : Word) : (s.setReg r v).mem = s.mem := rfl
@[simp] theorem setReg_halted (s : State) (r : Reg) (v : Word) : (s.setReg r v).halted = s.halted := rfl
@[simp] theorem setReg_onFire (s : State) (r : Reg) (v : Word) : (s.setReg r v).onFire = s.onFire := rfl
@[simp] theorem setReg_queueInterrupts (s : State) (r : Reg) (v : Word) :
    (s.setReg r v).queueInterrupts = s.queueInterrupts := rfl
@[simp] theorem setReg_queue (s : State) (r : Reg) (v : Word) : (s.setReg r v).queue = s.queue := rfl
@[simp] theorem setReg_error (s : State) (r : Reg) (v : Word) : (s.setReg r v).error = s.error := rfl

/-! ## store -/

@[simp] theorem store_regs (s : State) (x v : Word) : (s.store x v).regs = s.regs := rfl
@[simp] theorem store_pc (s : State) (x v : Word) : (s.store x v).pc = s.pc := rfl
@[simp] theorem store_sp (s : State) (x v : Word) : (s.store x v).sp = s.sp := rfl
@[simp] theorem store_ex (s : State) (x v : Word) : (s.store x v).ex = s.ex := rfl
@[simp] theorem store_ia (s : State) (x v : Word) : (s.store x v).ia = s.ia := rfl
@[simp] theorem store_mem (s : State) (x v : Word) : (s.store x v).mem = s.mem.write x v := rfl
@[simp] theorem store_halted (s : State) (x v : Word) : (s.store x v).halted = s.halted := rfl
@[simp] theorem store_onFire (s : State) (x v : Word) : (s.store x v).onFire = s.onFire := rfl
@[simp] theorem store_queueInterrupts (s : State) (x v : Word) :
    (s.store x v).queueInterrupts = s.queueInterrupts := rfl
@[simp] theorem store_queue (s : State) (x v : Word) : (s.store x v).queue = s.queue := rfl
@[simp] theorem store_error (s : State) (x v : Word) : (s.store x v).error = s.error := rfl

/-! ## push -/

@[simp] theorem push_regs (s : State) (v : Word) : (s.push v).regs = s.regs := rfl
@[simp] theorem push_pc (s : State) (v : Word) : (s.push v).pc = s.pc := rfl
@[simp] theorem push_sp (s : State) (v : Word) : (s.push v).sp = s.sp - 1 := rfl
@[simp] theorem push_ex (s : State) (v : Word) : (s.push v).ex = s.ex := rfl
@[simp] theorem push_ia (s : State) (v : Word) : (s.push v).ia = s.ia := rfl
@[simp] theorem push_mem (s : State) (v : Word) : (s.push v).mem = s.mem.write (s.sp - 1) v := rfl
@[simp] theorem push_halted (s : State) (v : Word) : (s.push v).halted = s.halted := rfl
@[simp] theorem push_onFire (s : State) (v : Word) : (s.push v).onFire = s.onFire := rfl
@[simp] theorem push_queueInterrupts (s : State) (v : Word) : (s.push v).queueInterrupts = s.queueInterrupts := rfl
@[simp] theorem push_queue (s : State) (v : Word) : (s.push v).queue = s.queue := rfl
@[simp] theorem push_error (s : State) (v : Word) : (s.push v).error = s.error := rfl

/-! ## pop -/

@[simp] theorem pop_regs (s : State) : (s.pop.2).regs = s.regs := rfl
@[simp] theorem pop_pc (s : State) : (s.pop.2).pc = s.pc := rfl
@[simp] theorem pop_sp (s : State) : (s.pop.2).sp = s.sp + 1 := rfl
@[simp] theorem pop_ex (s : State) : (s.pop.2).ex = s.ex := rfl
@[simp] theorem pop_ia (s : State) : (s.pop.2).ia = s.ia := rfl
@[simp] theorem pop_mem (s : State) : (s.pop.2).mem = s.mem := rfl
@[simp] theorem pop_halted (s : State) : (s.pop.2).halted = s.halted := rfl
@[simp] theorem pop_onFire (s : State) : (s.pop.2).onFire = s.onFire := rfl
@[simp] theorem pop_queueInterrupts (s : State) : (s.pop.2).queueInterrupts = s.queueInterrupts := rfl
@[simp] theorem pop_queue (s : State) : (s.pop.2).queue = s.queue := rfl
@[simp] theorem pop_error (s : State) : (s.pop.2).error = s.error := rfl

/-! ## advance -/

@[simp] theorem advance_regs (s : State) (n : Nat) : (s.advance n).regs = s.regs := rfl
@[simp] theorem advance_pc (s : State) (n : Nat) : (s.advance n).pc = s.pc + BitVec.ofNat 16 n := rfl
@[simp] theorem advance_sp (s : State) (n : Nat) : (s.advance n).sp = s.sp := rfl
@[simp] theorem advance_ex (s : State) (n : Nat) : (s.advance n).ex = s.ex := rfl
@[simp] theorem advance_ia (s : State) (n : Nat) : (s.advance n).ia = s.ia := rfl
@[simp] theorem advance_mem (s : State) (n : Nat) : (s.advance n).mem = s.mem := rfl
@[simp] theorem advance_halted (s : State) (n : Nat) : (s.advance n).halted = s.halted := rfl
@[simp] theorem advance_onFire (s : State) (n : Nat) : (s.advance n).onFire = s.onFire := rfl
@[simp] theorem advance_queueInterrupts (s : State) (n : Nat) :
    (s.advance n).queueInterrupts = s.queueInterrupts := rfl
@[simp] theorem advance_queue (s : State) (n : Nat) : (s.advance n).queue = s.queue := rfl
@[simp] theorem advance_error (s : State) (n : Nat) : (s.advance n).error = s.error := rfl

/-! ## clearError -/

@[simp] theorem clearError_regs (s : State) : (clearError s).regs = s.regs := rfl
@[simp] theorem clearError_pc (s : State) : (clearError s).pc = s.pc := rfl
@[simp] theorem clearError_sp (s : State) : (clearError s).sp = s.sp := rfl
@[simp] theorem clearError_ex (s : State) : (clearError s).ex = s.ex := rfl
@[simp] theorem clearError_ia (s : State) : (clearError s).ia = s.ia := rfl
@[simp] theorem clearError_mem (s : State) : (clearError s).mem = s.mem := rfl
@[simp] theorem clearError_halted (s : State) : (clearError s).halted = false := rfl
@[simp] theorem clearError_onFire (s : State) : (clearError s).onFire = s.onFire := rfl
@[simp] theorem clearError_queueInterrupts (s : State) : (clearError s).queueInterrupts = s.queueInterrupts := rfl
@[simp] theorem clearError_queue (s : State) : (clearError s).queue = s.queue := rfl
@[simp] theorem clearError_error (s : State) : (clearError s).error = none := rfl

/-! ## moveCursors -/

@[simp] theorem moveCursors_regs (d : Word) (s : State) :
    (moveCursors d s).regs = { s.regs with i := s.regs.i + d, j := s.regs.j + d } := rfl
@[simp] theorem moveCursors_pc (d : Word) (s : State) : (moveCursors d s).pc = s.pc := rfl
@[simp] theorem moveCursors_sp (d : Word) (s : State) : (moveCursors d s).sp = s.sp := rfl
@[simp] theorem moveCursors_ex (d : Word) (s : State) : (moveCursors d s).ex = s.ex := rfl
@[simp] theorem moveCursors_ia (d : Word) (s : State) : (moveCursors d s).ia = s.ia := rfl
@[simp] theorem moveCursors_mem (d : Word) (s : State) : (moveCursors d s).mem = s.mem := rfl
@[simp] theorem moveCursors_halted (d : Word) (s : State) : (moveCursors d s).halted = s.halted := rfl
@[simp] theorem moveCursors_onFire (d : Word) (s : State) : (moveCursors d s).onFire = s.onFire := rfl
@[simp] theorem moveCursors_queueInterrupts (d : Word) (s : State) :
    (moveCursors d s).queueInterrupts = s.queueInterrupts := rfl
@[simp] theorem moveCursors_queue (d : Word) (s : State) : (moveCursors d s).queue = s.queue := rfl
@[simp] theorem moveCursors_error (d : Word) (s : State) : (moveCursors d s).error = s.error := rfl

/-! ## leaveHandler -/

@[simp] theorem leaveHandler_regs (s : State) : (leaveHandler s).regs = s.regs.set .a (s.mem.read s.sp) := rfl
@[simp] theorem leaveHandler_pc (s : State) : (leaveHandler s).pc = s.mem.read (s.sp + 1) := rfl
@[simp] theorem leaveHandler_sp (s : State) : (leaveHandler s).sp = s.sp + 1 + 1 := rfl
@[simp] theorem leaveHandler_ex (s : State) : (leaveHandler s).ex = s.ex := rfl
@[simp] theorem leaveHandler_ia (s : State) : (leaveHandler s).ia = s.ia := rfl
@[simp] theorem leaveHandler_mem (s : State) : (leaveHandler s).mem = s.mem := rfl
@[simp] theorem leaveHandler_halted (s : State) : (leaveHandler s).halted = s.halted := rfl
@[simp] theorem leaveHandler_onFire (s : State) : (leaveHandler s).onFire = s.onFire := rfl
@[simp] theorem leaveHandler_queueInterrupts (s : State) : (leaveHandler s).queueInterrupts = false := rfl
@[simp] theorem leaveHandler_queue (s : State) : (leaveHandler s).queue = s.queue := rfl
@[simp] theorem leaveHandler_error (s : State) : (leaveHandler s).error = s.error := rfl

/-! ## enterHandler -/

@[simp] theorem enterHandler_regs (m : Word) (s : State) : (enterHandler m s).regs = s.regs.set .a m := rfl
@[simp] theorem enterHandler_pc (m : Word) (s : State) : (enterHandler m s).pc = s.ia := rfl
@[simp] theorem enterHandler_sp (m : Word) (s : State) : (enterHandler m s).sp = s.sp - 1 - 1 := rfl
@[simp] theorem enterHandler_ex (m : Word) (s : State) : (enterHandler m s).ex = s.ex := rfl
@[simp] theorem enterHandler_ia (m : Word) (s : State) : (enterHandler m s).ia = s.ia := rfl
@[simp] theorem enterHandler_mem (m : Word) (s : State) :
    (enterHandler m s).mem = (s.mem.write (s.sp - 1) s.pc).write (s.sp - 1 - 1) s.regs.a := rfl
@[simp] theorem enterHandler_halted (m : Word) (s : State) : (enterHandler m s).halted = s.halted := rfl
@[simp] theorem enterHandler_onFire (m : Word) (s : State) : (enterHandler m s).onFire = s.onFire := rfl
@[simp] theorem enterHandler_queueInterrupts (m : Word) (s : State) : (enterHandler m s).queueInterrupts = true := rfl
@[simp] theorem enterHandler_queue (m : Word) (s : State) : (enterHandler m s).queue = s.queue := rfl
@[simp] theorem enterHandler_error (m : Word) (s : State) : (enterHandler m s).error = s.error := rfl

/-! ## latch -/

@[simp] theorem latch_regs (fp : FaultPc) (kind : FaultKind) (data start : Word) (s : State) :
    (latch fp kind data start s).regs = s.regs := rfl
@[simp] theorem latch_pc (fp : FaultPc) (kind : FaultKind) (data start : Word) (s : State) :
    (latch fp kind data start s).pc = s.pc := rfl
@[simp] theorem latch_sp (fp : FaultPc) (kind : FaultKind) (data start : Word) (s : State) :
    (latch fp kind data start s).sp = s.sp := rfl
@[simp] theorem latch_ex (fp : FaultPc) (kind : FaultKind) (data start : Word) (s : State) :
    (latch fp kind data start s).ex = s.ex := rfl
@[simp] theorem latch_ia (fp : FaultPc) (kind : FaultKind) (data start : Word) (s : State) :
    (latch fp kind data start s).ia = s.ia := rfl
@[simp] theorem latch_mem (fp : FaultPc) (kind : FaultKind) (data start : Word) (s : State) :
    (latch fp kind data start s).mem = s.mem := rfl
@[simp] theorem latch_halted (fp : FaultPc) (kind : FaultKind) (data start : Word) (s : State) :
    (latch fp kind data start s).halted = true := rfl
@[simp] theorem latch_onFire (fp : FaultPc) (kind : FaultKind) (data start : Word) (s : State) :
    (latch fp kind data start s).onFire = s.onFire := rfl
@[simp] theorem latch_queueInterrupts (fp : FaultPc) (kind : FaultKind) (data start : Word) (s : State) :
    (latch fp kind data start s).queueInterrupts = s.queueInterrupts := rfl
@[simp] theorem latch_queue (fp : FaultPc) (kind : FaultKind) (data start : Word) (s : State) :
    (latch fp kind data start s).queue = s.queue := rfl
@[simp] theorem latch_error (fp : FaultPc) (kind : FaultKind) (data start : Word) (s : State) :
    (latch fp kind data start s).error = some (faultRecord kind data (match fp with | .instrStart => start | .advanced => s.pc)) := rfl

@[simp] theorem faultRecord_kind (kind : FaultKind) (data pc : Word) : (faultRecord kind data pc).kind = kind := rfl
@[simp] theorem faultRecord_data (kind : FaultKind) (data pc : Word) : (faultRecord kind data pc).data = data := rfl
@[simp] theorem faultRecord_pc (kind : FaultKind) (data pc : Word) : (faultRecord kind data pc).pc = pc := rfl

@[simp] theorem pop_value (s : State) : s.pop.1 = s.mem.read s.sp := rfl

/-! ## Registers -/

@[simp] theorem Regs.get_set_same (g : Regs) (r : Reg) (v : Word) : (g.set r v).get r = v := by cases r <;> rfl

theorem Regs.get_set_other (g : Regs) {r q : Reg} (v : Word) (h : q ≠ r) : (g.set r v).get q = g.get q := by
  cases r <;> cases q <;> first | rfl | exact absurd rfl h

theorem Regs.get_set (g : Regs) (r q : Reg) (v : Word) : (g.set r v).get q = if q = r then v else g.get q := by
  split
  · next h => rw [h, Regs.get_set_same]
  · next h => exact Regs.get_set_other g v h

@[simp] theorem setReg_reg_same (s : State) (r : Reg) (v : Word) : (s.setReg r v).reg r = v := s.regs.get_set_same r v

theorem setReg_reg_other (s : State) {r q : Reg} (v : Word) (h : q ≠ r) : (s.setReg r v).reg q = s.reg q :=
  s.regs.get_set_other v h

@[simp] theorem advance_reg (s : State) (n : Nat) (r : Reg) : (s.advance n).reg r = s.reg r := rfl

@[simp] theorem store_reg (s : State) (x v : Word) (r : Reg) : (s.store x v).reg r = s.reg r := rfl

@[simp] theorem push_reg (s : State) (v : Word) (r : Reg) : (s.push v).reg r = s.reg r := rfl

/-- The registers that STI and STD leave alone. -/
theorem moveCursors_reg (d : Word) (s : State) {r : Reg} (hi : r ≠ .i) (hj : r ≠ .j) :
    (moveCursors d s).reg r = s.reg r := by
  cases r <;> first | rfl | exact absurd rfl hi | exact absurd rfl hj

end Sys2Proof.Machine
end

