-- ==== Sys2Proof/Laws/Controller.lean ====
section
/-! SUPPORT. What an enqueue and a delivery attempt can do (60_exceptions.md R322, R327 to R331). -/

namespace Sys2Proof.Machine

/-- An enqueue appends the message, or finds the queue full and sets ON_FIRE (R322). -/
theorem enqueue_cases (m : Word) (s : State) :
    (queueCapacity ≤ s.queue.length ∧ enqueue m s = ({ s with onFire := true }, false)) ∨
      (s.queue.length < queueCapacity ∧ enqueue m s = ({ s with queue := s.queue ++ [m] }, true)) := by
  unfold enqueue
  split
  · next h => exact .inl ⟨h, rfl⟩
  · next h => exact .inr ⟨by omega, rfl⟩

theorem enqueue_full {m : Word} {s : State} (h : queueCapacity ≤ s.queue.length) :
    enqueue m s = ({ s with onFire := true }, false) := by simp [enqueue, h]

theorem enqueue_room {m : Word} {s : State} (h : s.queue.length < queueCapacity) :
    enqueue m s = ({ s with queue := s.queue ++ [m] }, true) := by simp [enqueue, h]

/-- A delivery attempt does nothing, drops the front message, or enters the handler with it (R328 to R331). -/
theorem attemptDelivery_cases (s : State) :
    attemptDelivery s = s ∨
      s.queueInterrupts = false ∧ ∃ m q, s.queue = m :: q ∧
        ((s.ia = 0 ∧ attemptDelivery s = { s with queue := q }) ∨
          (s.ia ≠ 0 ∧ attemptDelivery s = enterHandler m { s with queue := q })) := by
  unfold attemptDelivery
  split
  · exact .inl rfl
  · next h =>
    cases hq : s.queue with
    | nil => exact .inl rfl
    | cons m q =>
      refine .inr ⟨by simpa using h, m, q, rfl, ?_⟩
      by_cases hia : s.ia = 0
      · exact .inl ⟨hia, if_pos hia⟩
      · exact .inr ⟨hia, if_neg hia⟩

theorem attemptDelivery_error (s : State) : (attemptDelivery s).error = s.error := by
  rcases attemptDelivery_cases s with h | ⟨-, m, q, -, ⟨-, h⟩ | ⟨-, h⟩⟩ <;> simp [h]

theorem attemptDelivery_ia (s : State) : (attemptDelivery s).ia = s.ia := by
  rcases attemptDelivery_cases s with h | ⟨-, m, q, -, ⟨-, h⟩ | ⟨-, h⟩⟩ <;> simp [h]

theorem attemptDelivery_ex (s : State) : (attemptDelivery s).ex = s.ex := by
  rcases attemptDelivery_cases s with h | ⟨-, m, q, -, ⟨-, h⟩ | ⟨-, h⟩⟩ <;> simp [h]

theorem attemptDelivery_onFire (s : State) : (attemptDelivery s).onFire = s.onFire := by
  rcases attemptDelivery_cases s with h | ⟨-, m, q, -, ⟨-, h⟩ | ⟨-, h⟩⟩ <;> simp [h]

theorem attemptDelivery_halted (s : State) : (attemptDelivery s).halted = s.halted := by
  rcases attemptDelivery_cases s with h | ⟨-, m, q, -, ⟨-, h⟩ | ⟨-, h⟩⟩ <;> simp [h]

/-- Delivery takes at most the front message (R332). -/
theorem attemptDelivery_queue (s : State) :
    (attemptDelivery s).queue = s.queue ∨ (attemptDelivery s).queue = s.queue.tail := by
  rcases attemptDelivery_cases s with h | ⟨-, m, q, hq, ⟨-, h⟩ | ⟨-, h⟩⟩
  · exact .inl (by rw [h])
  · exact .inr (by rw [h, hq]; rfl)
  · exact .inr (by rw [h, hq]; rfl)

/-- A step that latched a fault ends without a delivery attempt (R104). -/
theorem endOfStep_faulted {s : State} (h : s.error.isSome = true) : endOfStep s = s := if_pos h

/-- A step without a fault ends with one delivery attempt (R104). -/
theorem endOfStep_running {s : State} (h : s.error = none) : endOfStep s = attemptDelivery s := by simp [endOfStep, h]

end Sys2Proof.Machine
end

