-- ==== Sys2Proof/Laws/Decode.lean ====
section
/-! SUPPORT. What the decoder can answer, once: lengths, well-formed operands, and that an operand's field and extra word
decode back to it. -/

namespace Sys2Proof

/-- A decoded operand consumed exactly its extra words. -/
theorem decodeOperand_count (rd : Nat → Word) (f : BitVec 6) (n : Nat) :
    (decodeOperand rd f n).2 = n + (decodeOperand rd f n).1.extraWords := by
  unfold decodeOperand
  split
  · rfl
  · split <;> first | rfl | (split <;> rfl)

theorem BasicOp.instr_form (op : BasicOp) (b a : Operand) : (op.instr b a).form = .basic op b a := by cases op <;> rfl

theorem SpecialOp.instr_form (op : SpecialOp) (a : Operand) : (op.instr a).form = .special op a := by cases op <;> rfl

/-- What the form of a basic opcode's instruction is (R83, R85). -/
theorem basicInstr_form (num : Numbering) (o : BitVec 5) (b a : Operand) :
    (basicInstr num o b a).form =
      match num.basic o with | some op => .basic op b a | none => .invalidBasic o b a := by
  unfold basicInstr
  cases num.basic o with
  | none => rfl
  | some op => exact BasicOp.instr_form op b a

/-- The same for the special format (R84, R86). -/
theorem specialInstr_form (num : Numbering) (c : BitVec 5) (a : Operand) :
    (specialInstr num c a).form =
      match num.special c with | some op => .special op a | none => .invalidSpecial c a := by
  unfold specialInstr
  cases num.special c with
  | none => rfl
  | some op => exact SpecialOp.instr_form op a

/-- In the default numbering every mnemonic has exactly one number (R83, R84). -/
theorem dcpu16_good : dcpu16Numbering.Good := by
  refine ⟨fun op => ?_, fun op => ?_, fun o op => ?_, fun c op => ?_⟩
  · cases op <;> decide
  · cases op <;> decide
  · revert o; cases op <;> decide
  · revert c; cases op <;> decide

/-- The decoded instruction of a nonzero basic opcode has that opcode and those operands (R83, R85). -/
theorem basicInstr_view {num : Numbering} (h : num.Good) {o : BitVec 5} (ho : o ≠ 0) (b a : Operand) :
    (basicInstr num o b a).viewUnder num = basicView o b a := by
  simp only [Instr.viewUnder, basicInstr_form]
  cases hn : num.basic o with
  | none => rfl
  | some op => rw [h.2.2.1 o op ho hn]

/-- The same for the special format (R84, R86). -/
theorem specialInstr_view {num : Numbering} (h : num.Good) (c : BitVec 5) (a : Operand) :
    (specialInstr num c a).viewUnder num = specialView c a := by
  simp only [Instr.viewUnder, specialInstr_form]
  cases hn : num.special c with
  | none => rfl
  | some op => rw [h.2.2.2 c op hn]

/-- What the decoder sees, in the format that the opcode field selects (R71), is what the instruction says of itself. -/
theorem decodeUnder_view {num : Numbering} (h : num.Good) (rd : Nat → Word) :
    (decodeUnder num rd).1.viewUnder num = (decodeFields rd).1 := by
  simp only [decodeUnder, decodeFields]
  split
  · exact specialInstr_view h _ _
  · next ho => exact basicInstr_view h ho _ _

/-- An instruction has as many extra words as its descriptors, whatever the numbering. -/
theorem Instr.view_extraWords (num : Numbering) (i : Instr) : (i.viewUnder num).extraWords = i.extraWords := by
  simp only [Instr.viewUnder, Instr.extraWords]
  cases i.form <;> rfl

theorem Decoded.instr_extraWords (num : Numbering) (d : Decoded) : (d.instr num).extraWords = d.extraWords := by
  cases hb : d.b with
  | none =>
    simp only [Decoded.instr, Decoded.extraWords, hb, Instr.extraWords, specialInstr_form]
    cases num.special d.code <;> rfl
  | some b =>
    simp only [Decoded.instr, Decoded.extraWords, hb, Instr.extraWords, basicInstr_form]
    cases num.basic d.code <;> rfl

/-- R78: the decoder's word count is 1 and the extra words. -/
theorem decodeFields_count (rd : Nat → Word) : (decodeFields rd).2 = 1 + (decodeFields rd).1.extraWords := by
  simp only [decodeFields, Decoded.extraWords]
  split
  · simp [specialView, decodeOperand_count]
  · simp [basicView, decodeOperand_count]; omega

/-- R78: the decoder's word count is the instruction's length. -/
theorem decode_count (num : Numbering) (rd : Nat → Word) : (decodeUnder num rd).2 = (decodeUnder num rd).1.length := by
  simp only [decodeUnder, Instr.length, Decoded.instr_extraWords, decodeFields_count]

theorem Operand.extraWords_le (op : Operand) : op.extraWords ≤ 1 := by cases op <;> simp [extraWords]

/-- R78: one to three words. -/
theorem Instr.length_pos (i : Instr) : 1 ≤ i.length := by simp [Instr.length]

theorem Instr.length_le (i : Instr) : i.length ≤ 3 := by
  have hx := Operand.extraWords_le
  simp only [Instr.length, Instr.extraWords]
  split
  · next b a _ => have := hx a; have := hx b; omega
  · next a _ => have := hx a; omega
  · next b a _ => have := hx a; have := hx b; omega
  · next a _ => have := hx a; omega

/-- The decoder looks at no word past the third. -/
theorem decodeFields_congr {rd rd' : Nat → Word} (h0 : rd 0 = rd' 0) (h1 : rd 1 = rd' 1) (h2 : rd 2 = rd' 2) :
    decodeFields rd = decodeFields rd' := by
  have key : ∀ f n, rd n = rd' n → decodeOperand rd f n = decodeOperand rd' f n := by
    intro f n h
    simp only [decodeOperand, h]
  have hn : ∀ f, (decodeOperand rd' f 1).2 = 1 ∨ (decodeOperand rd' f 1).2 = 2 := by
    intro f
    have := decodeOperand_count rd' f 1
    have := (decodeOperand rd' f 1).1.extraWords_le
    omega
  simp only [decodeFields, h0, key _ 1 h1]
  split
  · rfl
  · rw [key _ _ (by rcases hn (aField (rd' 0)) with h | h <;> rw [h] <;> assumption)]

theorem decode_congr (num : Numbering) {rd rd' : Nat → Word} (h0 : rd 0 = rd' 0) (h1 : rd 1 = rd' 1)
    (h2 : rd 2 = rd' 2) : decodeUnder num rd = decodeUnder num rd' := by
  simp only [decodeUnder, decodeFields_congr h0 h1 h2]

@[simp] theorem regOfBits_regBits (r : Reg) : regOfBits (regBits r) = r := by cases r <;> rfl

@[simp] theorem regBits_regOfBits (f : BitVec 3) : regBits (regOfBits f) = f := by
  revert f; decide

/-- An operand's field decodes to it, where its extra word stands at the next position (R73 to R77). -/
theorem decodeOperand_field {op : Operand} (h : op.wfA = true) (rd : Nat → Word) (n : Nat)
    (hx : ∀ v ∈ (operandExtra op).head?, rd n = v) :
    decodeOperand rd (operandField op) n = (op, n + op.extraWords) := by
  cases op with
  | inlineLit v =>
    have hv : v = 0xFFFF ∨ v.toNat ≤ 30 := by simpa [Operand.wfA, inlineRange] using h
    have hf : 0x20 ≤ (operandField (.inlineLit v)).toNat := by
      have e : (0x21 : Word).toNat = 33 := rfl
      simp only [operandField, BitVec.toNat_setWidth, BitVec.toNat_add, e]
      rcases hv with rfl | hv
      · decide
      · omega
    simp only [decodeOperand, hf, if_true, Operand.extraWords, Nat.add_zero, Prod.mk.injEq, and_true]
    congr 1
    apply BitVec.eq_of_toNat_eq
    rcases hv with rfl | hv
    · decide
    · simp [operandField]; omega
  | regVal r => cases r <;> rfl
  | regInd r => cases r <;> rfl
  | regOffInd r v =>
    have : rd n = v := hx v (by simp [operandExtra])
    subst this
    cases r <;> simp [decodeOperand, operandField, regBits, regOfBits, Operand.extraWords]
  | pick v => have : rd n = v := hx v (by simp [operandExtra]); subst this; rfl
  | absInd v => have : rd n = v := hx v (by simp [operandExtra]); subst this; rfl
  | absLit v => have : rd n = v := hx v (by simp [operandExtra]); subst this; rfl
  | pushPop => rfl
  | peek => rfl
  | spReg => rfl
  | pcReg => rfl
  | exReg => rfl

/-- The fields of a word built from three fields are those fields (R70). -/
theorem fields_of_word (x : BitVec 6) (y z : BitVec 5) :
    aField (x ++ y ++ z : BitVec 16) = x ∧ bField (x ++ y ++ z : BitVec 16) = y ∧
      opcodeField (x ++ y ++ z : BitVec 16) = z := by
  refine ⟨?_, ?_, ?_⟩ <;> simp only [aField, bField, opcodeField] <;> apply BitVec.eq_of_getLsbD_eq <;>
    intro i hi <;> simp <;> grind

/-- A word is built from its fields (R70). -/
theorem word_of_fields (w : Word) : (aField w ++ bField w ++ opcodeField w : BitVec 16) = w := by
  simp only [aField, bField, opcodeField]
  apply BitVec.eq_of_getLsbD_eq
  intro i hi
  simp
  grind

/-- R80: a descriptor that field `b` can hold has a field below 0x20, which five bits keep. -/
theorem operandField_narrow {op : Operand} (h : op.wfB = true) :
    ((operandField op).setWidth 5).setWidth 6 = operandField op := by
  cases op with
  | inlineLit v => simp [Operand.wfB] at h
  | regVal r => cases r <;> decide
  | regInd r => cases r <;> decide
  | regOffInd r n => cases r <;> (simp only [operandField]; decide)
  | _ => rfl

theorem Operand.wfA_of_wfB {op : Operand} (h : op.wfB = true) : op.wfA = true := by
  cases op <;> simp_all [Operand.wfB, Operand.wfA]

/-- A decoded operand fits field `a`, and its field and extra word are the ones decoded. -/
theorem decodeOperand_sound (rd : Nat → Word) (f : BitVec 6) (n : Nat) :
    (decodeOperand rd f n).1.wfA = true ∧ operandField (decodeOperand rd f n).1 = f ∧
      operandExtra (decodeOperand rd f n).1 = (List.range (decodeOperand rd f n).1.extraWords).map fun k => rd (n + k) := by
  generalize hv : rd n = v
  have key : ∀ f : BitVec 6, ∀ v : Word, ∀ rd : Nat → Word, rd n = v →
      ((decodeOperand rd f n).1.wfA = true ∧ operandField (decodeOperand rd f n).1 = f) := by
    intro f v rd _
    simp only [decodeOperand]
    split
    · next h =>
      have hall : ∀ g : BitVec 6, 0x20 ≤ g.toNat → inlineRange (g.setWidth 16 - 0x21) = true := by decide
      refine ⟨hall f h, ?_⟩
      apply BitVec.eq_of_toNat_eq
      simp [operandField]
    · next h =>
      have hf : f.toNat < 32 := by omega
      split <;> first
        | (next e => exact ⟨rfl, BitVec.eq_of_toNat_eq e.symm⟩)
        | skip
      next h18 h19 h1a h1b h1c h1d h1e h1f =>
        have hlt : f.toNat < 24 := by
          simp only [imp_false] at h18 h19 h1a h1b h1c h1d h1e h1f
          omega
        have hall : ∀ g : BitVec 6, g.toNat < 24 →
            ((g.extractLsb' 3 2).toNat = 0 → (0 : BitVec 3) ++ g.extractLsb' 0 3 = g) ∧
            ((g.extractLsb' 3 2).toNat = 1 → (1 : BitVec 3) ++ g.extractLsb' 0 3 = g) ∧
            ((g.extractLsb' 3 2).toNat ≠ 0 → (g.extractLsb' 3 2).toNat ≠ 1 →
              (2 : BitVec 3) ++ g.extractLsb' 0 3 = g) := by decide
        obtain ⟨k0, k1, k2⟩ := hall f hlt
        split
        · next e => exact ⟨rfl, by simpa [operandField] using k0 e⟩
        · next e => exact ⟨rfl, by simpa [operandField] using k1 e⟩
        · next e0 e1 => exact ⟨rfl, by simpa [operandField] using k2 e0 e1⟩
  refine ⟨(key f v rd hv).1, (key f v rd hv).2, ?_⟩
  unfold decodeOperand
  split
  · rfl
  · split <;> first | rfl | (split <;> rfl)

/-- R80: an operand decoded from the 5-bit field is no inline literal. -/
theorem decodeOperand_wfB (rd : Nat → Word) (f : BitVec 5) (n : Nat) :
    (decodeOperand rd (f.setWidth 6) n).1.wfB = true := by
  have hf : ¬ 0x20 ≤ (f.setWidth 6).toNat := by
    have : f.toNat < 32 := f.isLt
    simp only [BitVec.toNat_setWidth]; omega
  simp only [decodeOperand, hf, if_false]
  split <;> first | rfl | (split <;> rfl)

end Sys2Proof
end

