-- ==== Sys2Proof/Laws/Flags.lean ====
section
/-! SUPPORT. The exact arithmetic of Machine/Flags.lean in the terms of words: sums, differences and products are those of
16-bit words, and `hi16` of a natural number is its upper half. -/

namespace Sys2Proof.Machine

theorem trunc16_natCast (n : Nat) : trunc16 (n : Int) = BitVec.ofNat 16 n := by
  simp [trunc16]

theorem hi16_natCast (n : Nat) : hi16 (n : Int) = BitVec.ofNat 16 (n / 65536) := by
  have h : ((n : Int) / 65536) = ((n / 65536 : Nat) : Int) := by norm_cast
  rw [hi16, h, trunc16_natCast]

theorem trunc16_u16 (v : Word) : trunc16 (u16 v) = v := by
  rw [u16, trunc16_natCast, BitVec.ofNat_toNat, BitVec.setWidth_eq]

theorem trunc16_s16 (v : Word) : trunc16 (s16 v) = v := by simp [trunc16, s16]

theorem trunc16_add (m n : Int) : trunc16 (m + n) = trunc16 m + trunc16 n := by
  simp [trunc16, BitVec.ofInt_add]

theorem trunc16_mul (m n : Int) : trunc16 (m * n) = trunc16 m * trunc16 n := by
  simp [trunc16, BitVec.ofInt_mul]

theorem trunc16_neg (n : Int) : trunc16 (-n) = -trunc16 n := by
  simp [trunc16, BitVec.ofInt_neg]

theorem trunc16_sub (m n : Int) : trunc16 (m - n) = trunc16 m - trunc16 n := by
  rw [sub_eq_add_neg, trunc16_add, trunc16_neg, ← sub_eq_add_neg]

/-- The EX of a number between −65536 and −1 is 0xFFFF. -/
theorem hi16_of_borrow {n : Int} (hl : -65536 ≤ n) (hu : n < 0) : hi16 n = 0xFFFF := by
  have : n / 65536 = -1 := by omega
  rw [hi16, this]; rfl

/-- The EX of a number below 65536 is 0. -/
theorem hi16_of_small {n : Int} (hl : 0 ≤ n) (hu : n < 65536) : hi16 n = 0 := by
  have : n / 65536 = 0 := by omega
  rw [hi16, this]; rfl

/-- The EX of a number from 65536 up to 131071 is 1. -/
theorem hi16_of_carry {n : Int} (hl : 65536 ≤ n) (hu : n < 131072) : hi16 n = 1 := by
  have : n / 65536 = 1 := by omega
  rw [hi16, this]; rfl

end Sys2Proof.Machine
end

