-- ==== Sys2Proof/Laws/Memory.lean ====
section
/-! SUPPORT. The laws of memory: a read after a write, the canonical form, and that equal contents are equal lists. -/

namespace Sys2Proof.Machine

theorem Memory.lookup_insert (m : Memory) (a b : Nat) (v : Word) :
    (m.insert a v).lookup b = if b = a then v else m.lookup b := by
  induction m with
  | nil => simp [Memory.insert, Memory.lookup, eq_comm]
  | cons p m ih =>
    obtain ⟨k, w⟩ := p
    simp only [Memory.insert]
    split_ifs with h1 h2 h3 h3 h3 <;> simp_all [Memory.lookup] <;> grind

theorem Memory.lookup_filter (m : Memory) (a b : Nat) :
    Memory.lookup (m.filter fun p => p.1 != a) b = if b = a then 0 else m.lookup b := by
  induction m with
  | nil => simp [Memory.lookup]
  | cons p m ih =>
    obtain ⟨k, w⟩ := p
    by_cases hk : k = a <;> by_cases hb : b = a <;> by_cases hkb : k = b <;> simp_all [Memory.lookup]

/-- 20_memory.md R50, R61: a read gives what the last write to that address left, and no write touches another
address. It holds of every list, canonical or not. -/
theorem Memory.read_write (m : Memory) (x y v : Word) :
    (m.write x v).read y = if y = x then v else m.read y := by
  simp only [Memory.read, Memory.write, ← BitVec.toNat_inj]
  split_ifs with hv <;> simp_all [Memory.lookup_insert, Memory.lookup_filter, BitVec.toNat_inj]

@[simp] theorem Memory.read_write_same (m : Memory) (x v : Word) : (m.write x v).read x = v := by
  simp [Memory.read_write]

theorem Memory.read_write_other (m : Memory) {x y : Word} (v : Word) (h : y ≠ x) :
    (m.write x v).read y = m.read y := by simp [Memory.read_write, h]

@[simp] theorem Memory.read_nil (x : Word) : Memory.read [] x = 0 := rfl

theorem Memory.mem_insert {m : Memory} {a : Nat} {v : Word} {p : Nat × Word} (h : p ∈ m.insert a v) :
    p = (a, v) ∨ p ∈ m := by
  induction m with
  | nil => simpa [Memory.insert] using h
  | cons q m ih =>
    obtain ⟨k, w⟩ := q
    simp only [Memory.insert] at h
    split_ifs at h <;> simp_all <;> grind

theorem Memory.insert_wf {m : Memory} (h : m.wf) {a : Nat} (ha : a < 65536) {v : Word} (hv : v ≠ 0) :
    (m.insert a v).wf := by
  obtain ⟨hs, hm⟩ := h
  refine ⟨?_, fun p hp => ?_⟩
  · clear hm
    induction m with
    | nil => simp [Memory.insert]
    | cons q m ih =>
      obtain ⟨k, w⟩ := q
      obtain ⟨hq, hs'⟩ := List.pairwise_cons.1 hs
      simp only [Memory.insert]
      split_ifs with h1 h2
      · refine List.pairwise_cons.2 ⟨fun r hr => ?_, hs⟩
        rcases List.mem_cons.1 hr with rfl | hr
        · exact h1
        · exact lt_trans h1 (hq r hr)
      · subst h2
        exact List.pairwise_cons.2 ⟨hq, hs'⟩
      · refine List.pairwise_cons.2 ⟨fun r hr => ?_, ih hs'⟩
        rcases Memory.mem_insert hr with rfl | hr
        · show k < a
          omega
        · exact hq r hr
  · rcases Memory.mem_insert hp with rfl | hp
    · exact ⟨ha, hv⟩
    · exact hm p hp

/-- Every write keeps the canonical form. -/
theorem Memory.write_wf {m : Memory} (h : m.wf) (x v : Word) : (m.write x v).wf := by
  unfold Memory.write
  split_ifs with hv
  · exact ⟨h.1.filter _, fun p hp => h.2 p (List.mem_of_mem_filter hp)⟩
  · exact Memory.insert_wf h x.isLt hv

/-- A load keeps the canonical form. -/
theorem storeWords_wf (ws : List Word) {base : Nat} {s : State} (h : s.mem.wf) : (storeWords base ws s).mem.wf := by
  induction ws generalizing base s with
  | nil => exact h
  | cons w ws ih => exact ih (Memory.write_wf h _ _)

/-- The memory after reset is canonical. -/
theorem Memory.reset_wf : State.reset.mem.wf := by decide

end Sys2Proof.Machine
end

