-- ==== Sys2Proof/Laws/Operands.lean ====
section
/-! SUPPORT. What the operand resolver can do, once: the state a read leaves, each field a write leaves, and that
`writeResult` is the pseudocode of 40_dispatch_and_operands.md R126. -/

namespace Sys2Proof.Machine

/-! ## Reading -/

/-- A read changes nothing but SP, and SP only by a pop (R115, R121). -/
theorem readOperand_state (op : Operand) (s : State) :
    (readOperand op s).2 = { s with sp := s.sp + popMove op } := by
  cases op <;> simp [readOperand, popMove, State.pop]

@[simp] theorem readOperand_regs (op : Operand) (s : State) : (readOperand op s).2.regs = s.regs := by
  rw [readOperand_state]
@[simp] theorem readOperand_reg (op : Operand) (s : State) (r : Reg) : (readOperand op s).2.reg r = s.reg r := by
  rw [readOperand_state]; rfl
@[simp] theorem readOperand_pc (op : Operand) (s : State) : (readOperand op s).2.pc = s.pc := by
  rw [readOperand_state]
@[simp] theorem readOperand_sp (op : Operand) (s : State) : (readOperand op s).2.sp = s.sp + popMove op := by
  rw [readOperand_state]
@[simp] theorem readOperand_ex (op : Operand) (s : State) : (readOperand op s).2.ex = s.ex := by
  rw [readOperand_state]
@[simp] theorem readOperand_ia (op : Operand) (s : State) : (readOperand op s).2.ia = s.ia := by
  rw [readOperand_state]
@[simp] theorem readOperand_mem (op : Operand) (s : State) : (readOperand op s).2.mem = s.mem := by
  rw [readOperand_state]
@[simp] theorem readOperand_halted (op : Operand) (s : State) : (readOperand op s).2.halted = s.halted := by
  rw [readOperand_state]
@[simp] theorem readOperand_onFire (op : Operand) (s : State) : (readOperand op s).2.onFire = s.onFire := by
  rw [readOperand_state]
@[simp] theorem readOperand_queueInterrupts (op : Operand) (s : State) :
    (readOperand op s).2.queueInterrupts = s.queueInterrupts := by rw [readOperand_state]
@[simp] theorem readOperand_queue (op : Operand) (s : State) : (readOperand op s).2.queue = s.queue := by
  rw [readOperand_state]
@[simp] theorem readOperand_error (op : Operand) (s : State) : (readOperand op s).2.error = s.error := by
  rw [readOperand_state]

/-- The state after `a` was read: the PC past the instruction, SP moved by a pop. -/
theorem readA_state (b a : Operand) (s : State) :
    (readA b a s).2 = { s with pc := s.pc + BitVec.ofNat 16 (basicLength b a), sp := s.sp + popMove a } := by
  simp [readA, readOperand_state, State.advance]

/-- The same for a special instruction. -/
theorem readSpecial_state (a : Operand) (s : State) :
    (readSpecial a s).2 = { s with pc := s.pc + BitVec.ofNat 16 (specialLength a), sp := s.sp + popMove a } := by
  simp [readSpecial, readOperand_state, State.advance]

/-- The state after both reads (R107, R122). -/
theorem readBoth_after (b a : Operand) (s : State) :
    (readBoth b a s).after =
      { s with pc := s.pc + BitVec.ofNat 16 (basicLength b a), sp := s.sp + popMove a + popMove b } := by
  simp [readBoth, readA, readOperand_state, State.advance]

/-! ## Writing -/

/-- Where a write goes in memory. -/
theorem writeOperand_mem (op : Operand) (v : Word) (s : State) :
    (writeOperand op v s).mem = (storeAddress op s).elim s.mem fun x => s.mem.write x v := by
  cases op <;> rfl

theorem writeOperand_reg (op : Operand) (v : Word) (s : State) (r : Reg) :
    (writeOperand op v s).reg r = if op = .regVal r then v else s.reg r := by
  cases op <;> simp only [writeOperand, reduceCtorEq, if_false] <;> try rfl
  next q =>
    by_cases h : q = r
    · simp [h]
    · simp [h, setReg_reg_other s v (Ne.symm h)]

theorem writeOperand_sp (op : Operand) (v : Word) (s : State) :
    (writeOperand op v s).sp = if op = .spReg then v else s.sp - popMove op := by
  cases op <;> simp [writeOperand, popMove]

theorem writeOperand_pc (op : Operand) (v : Word) (s : State) :
    (writeOperand op v s).pc = if op = .pcReg then v else s.pc := by cases op <;> rfl

theorem writeOperand_ex (op : Operand) (v : Word) (s : State) :
    (writeOperand op v s).ex = if op = .exReg then v else s.ex := by cases op <;> rfl

@[simp] theorem writeOperand_ia (op : Operand) (v : Word) (s : State) : (writeOperand op v s).ia = s.ia := by
  cases op <;> rfl
@[simp] theorem writeOperand_halted (op : Operand) (v : Word) (s : State) :
    (writeOperand op v s).halted = s.halted := by cases op <;> rfl
@[simp] theorem writeOperand_onFire (op : Operand) (v : Word) (s : State) :
    (writeOperand op v s).onFire = s.onFire := by cases op <;> rfl
@[simp] theorem writeOperand_queueInterrupts (op : Operand) (v : Word) (s : State) :
    (writeOperand op v s).queueInterrupts = s.queueInterrupts := by cases op <;> rfl
@[simp] theorem writeOperand_queue (op : Operand) (v : Word) (s : State) :
    (writeOperand op v s).queue = s.queue := by cases op <;> rfl
@[simp] theorem writeOperand_error (op : Operand) (v : Word) (s : State) :
    (writeOperand op v s).error = s.error := by cases op <;> rfl

/-- A write reads as before everywhere but at its address. -/
theorem writeOperand_keeps_memory (op : Operand) (v : Word) (s : State) :
    KeepsMemoryBut (storeAddress op s) s (writeOperand op v s) := by
  intro x hx
  rw [writeOperand_mem]
  cases h : storeAddress op s with
  | none => rfl
  | some y => exact Memory.read_write_other _ _ fun e => hx (by rw [h, e])

theorem writeOperand_mem_wf {op : Operand} {v : Word} {s : State} (h : s.mem.wf) : (writeOperand op v s).mem.wf := by
  rw [writeOperand_mem]
  cases storeAddress op s with
  | none => exact h
  | some y => exact Memory.write_wf h y v

/-! ## Writing a result and EX -/

/-- Where `b` is not EX, the result goes to `b` and the EX value to EX. -/
theorem writeResult_of_ne (order : ExWriteOrder) {b : Operand} (hb : b ≠ .exReg) (res exv : Word) (s : State) :
    writeResult order b res exv s = { writeOperand b res s with ex := exv } := by
  cases b <;> first | rfl | exact absurd rfl hb

theorem writeResult_keeps_memory (order : ExWriteOrder) (b : Operand) (res exv : Word) (s : State) :
    KeepsMemoryBut (storeAddress b s) s (writeResult order b res exv s) := by
  intro x hx
  by_cases hb : b = .exReg
  · subst hb; rfl
  · rw [writeResult_of_ne order hb]
    exact writeOperand_keeps_memory b res s x hx

/-- Every field but EX is what the write of the result leaves. -/
theorem writeResult_but_ex (order : ExWriteOrder) (b : Operand) (res exv : Word) (s : State) :
    ∃ e, writeResult order b res exv s = { writeOperand b res s with ex := e } := by
  by_cases hb : b = .exReg
  · subst hb
    exact ⟨_, rfl⟩
  · exact ⟨exv, writeResult_of_ne order hb res exv s⟩

end Sys2Proof.Machine
end

