-- ==== Sys2Proof/Laws/Skip.lean ====
section
/-! SUPPORT. The skip loop against the relation `SkipRun` (43_conditional.md R221, R223): what it answers is a run of the
chain, a run it has fuel for it answers, and under StopAtTop it always answers. -/

namespace Sys2Proof.Machine

/-- A step that decodes at a position moves past at least one word (30_encoding.md R78). -/
theorem decodeAt_count_pos (num : Numbering) (m : Memory) (p : Word) : 1 ≤ (decodeAtUnder num m p).2 := by
  rw [decodeAtUnder, decode_count]
  exact Instr.length_pos _

/-- The loop's answer is a run, with the instructions skipped so far added to its count. -/
theorem skipLoop_sound {num : Numbering} {policy : SkipEndPolicy} {m : Memory} {fuel p j e k : Nat}
    (h : skipLoop num policy m fuel p j = some (e, k)) : ∃ n, k = j + n ∧ SkipRunUnder num policy m p e n := by
  induction fuel generalizing p j with
  | zero => simp [skipLoop] at h
  | succ fuel ih =>
    simp only [skipLoop] at h
    split at h
    · next ht =>
      obtain ⟨rfl, rfl⟩ := Prod.mk.inj (Option.some.inj h)
      exact ⟨0, rfl, .atTop ht.1 ht.2⟩
    · next ht =>
      split at h
      · next hc =>
        obtain ⟨n, rfl, hr⟩ := ih h
        exact ⟨n + 1, by omega, .more ht hc hr⟩
      · next hc =>
        obtain ⟨rfl, rfl⟩ := Prod.mk.inj (Option.some.inj h)
        exact ⟨1, rfl, .last ht (by simpa using hc)⟩

/-- A run that the fuel lasts for is the loop's answer. -/
theorem skipLoop_complete {num : Numbering} {policy : SkipEndPolicy} {m : Memory} {p e k : Nat}
    (h : SkipRunUnder num policy m p e k) :
    ∀ {fuel j : Nat}, k < fuel → skipLoop num policy m fuel p j = some (e, j + k) := by
  induction h with
  | atTop hp ht =>
    intro fuel j hf
    cases fuel with
    | zero => omega
    | succ f => simp [skipLoop, hp, ht]
  | last ht hc =>
    intro fuel j hf
    cases fuel with
    | zero => omega
    | succ f => simp [skipLoop, ht, hc]
  | @more p e k ht hc hr ih =>
    intro fuel j hf
    cases fuel with
    | zero => omega
    | succ f =>
      simp only [skipLoop, if_neg ht, hc, if_true]
      rw [ih (by omega), Nat.add_assoc, Nat.add_comm 1 k]

/-- A chain ends at one place, with one count. -/
theorem SkipRunUnder.unique {num : Numbering} {policy : SkipEndPolicy} {m : Memory} {p e k e' k' : Nat}
    (h : SkipRunUnder num policy m p e k) (h' : SkipRunUnder num policy m p e' k') : e = e' ∧ k = k' := by
  have a := skipLoop_complete h (fuel := max k k' + 1) (j := 0) (by omega)
  have b := skipLoop_complete h' (fuel := max k k' + 1) (j := 0) (by omega)
  rw [a] at b
  simpa using b

/-- Under StopAtTop the loop answers, given one unit of fuel for every word up to the top of memory and one more. -/
theorem skipLoop_stopAtTop (num : Numbering) (m : Memory) {fuel p j : Nat} (hf : 0 < fuel) (h : 65536 < fuel + p) :
    ∃ r, skipLoop num .stopAtTop m fuel p j = some r := by
  induction fuel generalizing p j with
  | zero => omega
  | succ fuel ih =>
    simp only [skipLoop]
    split
    · exact ⟨_, rfl⟩
    · next ht =>
      have hp : p < 65536 := by simpa using ht
      have hn := decodeAt_count_pos num m (BitVec.ofNat 16 p)
      split
      · exact ih (by omega) (by omega)
      · exact ⟨_, rfl⟩

end Sys2Proof.Machine
end

