-- ==== Sys2Proof/Laws/Exec.lean ====
section
/-! SUPPORT. What each access pattern answers, and from it, once for all instructions, everything an instruction can do:
`exec_effect`. Whole-machine claims are case analyses of `Effect`, without unfolding a meaning. -/

namespace Sys2Proof.Machine

/-! ## The access patterns -/

/-- An instruction with a result and EX writes `b` in the state after both reads, and EX (R106, R107). -/
theorem computeEx_writes (P : Params) (f : Word → Word → Word → ResultEx) (b a : Operand) (s : State) :
    ∃ v e, computeEx P f b a s = { writeOperand b v (readBoth b a s).after with ex := e } := by
  obtain ⟨e, h⟩ := writeResult_but_ex P.exWriteOrder b
    (f (readBoth b a s).vb (readBoth b a s).va (readBoth b a s).after.ex).res
    (f (readBoth b a s).vb (readBoth b a s).va (readBoth b a s).after.ex).exv (readBoth b a s).after
  exact ⟨_, e, h⟩

/-- A conditional whose test holds only reads (R219). -/
theorem conditional_holds {P : Params} {test : Word → Word → Bool} {b a : Operand} {s : State}
    (h : test (readBoth b a s).vb (readBoth b a s).va = true) :
    conditional P test b a s = .next (readBoth b a s).after := by
  simp [conditional, conditionalOn, h]

/-- A conditional whose test fails, where the loop of its skip answers: the PC goes to the end of the chain (R221), and
`skippedBy` counts it. -/
theorem conditional_skips {P : Params} {test : Word → Word → Bool} {b a : Operand} {s : State} {e k : Nat}
    (h : test (readBoth b a s).vb (readBoth b a s).va = false)
    (hr : skipLoop P.opcodeNumbering P.skipEndPolicy s.mem skipFuel (s.pc.toNat + basicLength b a) 0 = some (e, k)) :
    SkipRunUnder P.opcodeNumbering P.skipEndPolicy s.mem (s.pc.toNat + basicLength b a) e k ∧
      skippedBy P test b a s = k ∧
      conditional P test b a s = .next { (readBoth b a s).after with pc := BitVec.ofNat 16 e } := by
  obtain ⟨n, hn, hrun⟩ := skipLoop_sound hr
  have hm : (readBoth b a s).after.mem = s.mem := by rw [readBoth_after]
  have hc : conditionalOn P test b a s = some ({ (readBoth b a s).after with pc := BitVec.ofNat 16 e }, k) := by
    simp only [conditionalOn, h, skipChainUnder, hm]
    rw [hr]; rfl
  refine ⟨?_, ?_, ?_⟩
  · rw [hn, Nat.zero_add]; exact hrun
  · rw [skippedBy, hc]
  · rw [conditional, hc]

/-- Under StopAtTop the loop of a skip always answers. -/
theorem skip_answers {P : Params} (hp : P.skipEndPolicy = .stopAtTop) (b a : Operand) (s : State) :
    ∃ e k, skipLoop P.opcodeNumbering P.skipEndPolicy s.mem skipFuel (s.pc.toNat + basicLength b a) 0 = some (e, k) := by
  have hl : 1 ≤ basicLength b a := by simp only [basicLength]; omega
  obtain ⟨⟨e, k⟩, hr⟩ := skipLoop_stopAtTop P.opcodeNumbering s.mem (fuel := skipFuel)
    (p := s.pc.toNat + basicLength b a) (j := 0) (by simp [skipFuel]) (by simp only [skipFuel]; omega)
  exact ⟨e, k, by rw [hp]; exact hr⟩

/-- A conditional whose test fails moves the PC to the end of its skip chain (R221); `skippedBy` counts the chain. -/
theorem conditional_fails {test : Word → Word → Bool} {b a : Operand} {s : State}
    (h : test (readBoth b a s).vb (readBoth b a s).va = false) :
    ∃ e k, SkipRun .stopAtTop s.mem (s.pc.toNat + basicLength b a) e k ∧ skippedBy params test b a s = k ∧
      conditional params test b a s = .next { (readBoth b a s).after with pc := BitVec.ofNat 16 e } := by
  obtain ⟨e, k, hr⟩ := skip_answers (P := params) rfl b a s
  exact ⟨e, k, conditional_skips h hr⟩

/-- A conditional completes and changes nothing but PC and SP (R210), or, under Wrap only, the fault
`skipNeverEnds`. -/
theorem conditional_cases (P : Params) (test : Word → Word → Bool) (b a : Operand) (s : State) :
    (∃ p, conditional P test b a s = .next { s with pc := p, sp := s.sp + popMove a + popMove b }) ∨
      (P.skipEndPolicy = .wrap ∧ conditional P test b a s = .fault .skipNeverEnds) := by
  cases h : test (readBoth b a s).vb (readBoth b a s).va with
  | true => exact .inl ⟨_, by rw [conditional_holds h, readBoth_after]⟩
  | false =>
    cases hr : skipLoop P.opcodeNumbering P.skipEndPolicy s.mem skipFuel (s.pc.toNat + basicLength b a) 0 with
    | some r =>
      obtain ⟨-, -, hc⟩ := conditional_skips h hr
      exact .inl ⟨_, by rw [hc, readBoth_after]⟩
    | none =>
      have hm : (readBoth b a s).after.mem = s.mem := by rw [readBoth_after]
      refine .inr ⟨?_, ?_⟩
      · cases hp : P.skipEndPolicy with
        | wrap => rfl
        | stopAtTop =>
          obtain ⟨e, k, he⟩ := skip_answers hp b a s
          rw [hr] at he
          cases he
      · have hc : conditionalOn P test b a s = none := by
          simp only [conditionalOn, h, skipChainUnder, hm]
          rw [hr]; rfl
        rw [conditional, hc]

/-- In this machine a conditional always completes (R210, R223). -/
theorem conditional_next (test : Word → Word → Bool) (b a : Operand) (s : State) :
    ∃ p, conditional params test b a s = .next { s with pc := p, sp := s.sp + popMove a + popMove b } := by
  rcases conditional_cases params test b a s with h | ⟨h, -⟩
  · exact h
  · cases h

/-! ## Everything an instruction can do -/

/-- The states an instruction can answer from `s`. -/
inductive Effect (P : Params) (i : Instr) (s : State) : State → Prop
  /-- PC and SP move, and nothing else: conditionals, no-ops. -/
  | moves (p q : Word) : Effect P i s { s with pc := p, sp := q }
  /-- The destination operand is written, and EX by the instructions that set it. -/
  | writes (op : Operand) (v e p q : Word) :
      i.destination = some op →
      (i.setsEx = true ∨ e = (writeOperand op v { s with pc := p, sp := q }).ex) →
      (∀ a, i ≠ .iag a ∨ P.specialMode = .wired) →
      Effect P i s { writeOperand op v { s with pc := p, sp := q } with ex := e }
  /-- STI, STD: the destination is written and the cursors move. -/
  | copies (op : Operand) (v d p q : Word) :
      i.destination = some op → Effect P i s (moveCursors d (writeOperand op v { s with pc := p, sp := q }))
  /-- JSR, wired. -/
  | calls (a : Operand) (p q x v : Word) : i = .jsr a → P.specialMode = .wired →
      Effect P i s { s with pc := p, sp := q, mem := s.mem.write x v }
  /-- INT, wired. -/
  | enqueues (a : Operand) (m p q : Word) : i = .int a → P.specialMode = .wired →
      Effect P i s (enqueue m { s with pc := p, sp := q }).1
  /-- IAS, wired. -/
  | setsIa (a : Operand) (v p q : Word) : i = .ias a → P.specialMode = .wired →
      Effect P i s { s with pc := p, sp := q, ia := v }
  /-- RFI, wired. -/
  | returns (a : Operand) (p : Word) : i = .rfi a → P.specialMode = .wired →
      Effect P i s (leaveHandler { s with pc := p })
  /-- IAQ, wired. -/
  | switches (a : Operand) (x : Bool) (p q : Word) : i = .iaq a → P.specialMode = .wired →
      Effect P i s { s with pc := p, sp := q, queueInterrupts := x }
  /-- An unassigned opcode, and nothing else, latches a fault; SP keeps the pops of the reads. -/
  | faults (kind : FaultKind) (data q : Word) :
      (∃ o b a, i = .invalidBasicOpcode o b a) ∨ (∃ c a, i = .invalidSpecialOpcode c a) →
      kind ≠ .invalidArgumentType → q = s.sp ∨ q = s.sp + 1 ∨ q = s.sp + 2 →
      Effect P i s (latch P.faultPc kind data s.pc { s with pc := s.pc + BitVec.ofNat 16 i.length, sp := q })

theorem Effect.of_computeEx {P : Params} {i : Instr} {s : State} (f : Word → Word → Word → ResultEx) (b a : Operand)
    (hd : i.destination = some b) (hx : i.setsEx = true) (hi : ∀ a, i ≠ .iag a) :
    Effect P i s (computeEx P f b a s) := by
  obtain ⟨v, e, h⟩ := computeEx_writes P f b a s
  rw [h, readBoth_after]
  exact .writes b v e _ _ hd (.inl hx) fun a => .inl (hi a)

theorem Effect.of_writeOperand {P : Params} {i : Instr} {s : State} (b : Operand) (v p q : Word)
    (hd : i.destination = some b) (hi : ∀ a, i ≠ .iag a ∨ P.specialMode = .wired) :
    Effect P i s (writeOperand b v { s with pc := p, sp := q }) :=
  .writes b v _ p q hd (.inr rfl) hi

theorem Effect.of_compute {P : Params} {i : Instr} {s : State} (f : Word → Word → Word) (b a : Operand)
    (hd : i.destination = some b) (hi : ∀ a, i ≠ .iag a) : Effect P i s (compute f b a s) := by
  simp only [compute, readBoth_after]
  exact .of_writeOperand b _ _ _ hd fun a => .inl (hi a)

theorem Effect.of_assign {P : Params} {i : Instr} {s : State} (b a : Operand) (hd : i.destination = some b)
    (hi : ∀ a, i ≠ .iag a) : Effect P i s (assign b a s) := by
  simp only [assign, readA_state]
  exact .of_writeOperand b _ _ _ hd fun a => .inl (hi a)

theorem Effect.of_copy {P : Params} {i : Instr} {s : State} (d : Word) (b a : Operand) (hd : i.destination = some b) :
    Effect P i s (moveCursors d (assign b a s)) := by
  simp only [assign, readA_state]
  exact .copies b _ d _ _ hd

theorem Effect.of_advance {P : Params} {i : Instr} {s : State} (n : Nat) : Effect P i s (s.advance n) := .moves _ s.sp

theorem Effect.of_byMode {P : Params} {i : Instr} {s : State} (a : Operand) {w : State → State}
    (h : P.specialMode = .wired → Effect P i s (w s)) : Effect P i s (byMode P.specialMode a w s) := by
  cases hm : P.specialMode with
  | noOp => exact .of_advance _
  | wired => exact h hm

/-- A read moves SP by 0 or 1. -/
theorem popMove_cases (op : Operand) : popMove op = 0 ∨ popMove op = 1 := by cases op <;> simp [popMove]

/-- Every instruction, under any parameters, completes with one of the effects, or, under Wrap only, the fault
`skipNeverEnds`. -/
theorem execUnder_cases (P : Params) (i : Instr) (s : State) :
    (∃ t, execUnder P i s = .next t ∧ Effect P i s t) ∨
      (P.skipEndPolicy = .wrap ∧ i.isConditional = true ∧ execUnder P i s = .fault .skipNeverEnds) := by
  have cond : ∀ (test : Word → Word → Bool) (b a : Operand), i.isConditional = true →
      execUnder P i s = conditional P test b a s → (∃ t, execUnder P i s = .next t ∧ Effect P i s t) ∨
        (P.skipEndPolicy = .wrap ∧ i.isConditional = true ∧ execUnder P i s = .fault .skipNeverEnds) :=
    fun test b a hi he => by
      rcases conditional_cases P test b a s with ⟨p, h⟩ | ⟨hp, h⟩
      · exact .inl ⟨_, he.trans h, .moves p _⟩
      · exact .inr ⟨hp, hi, he.trans h⟩
  cases i with
  | set b a => exact .inl ⟨_, rfl, .of_assign b a rfl (by simp)⟩
  | add b a => exact .inl ⟨_, rfl, .of_computeEx _ b a rfl rfl (by simp)⟩
  | sub b a => exact .inl ⟨_, rfl, .of_computeEx _ b a rfl rfl (by simp)⟩
  | mul b a => exact .inl ⟨_, rfl, .of_computeEx _ b a rfl rfl (by simp)⟩
  | mli b a => exact .inl ⟨_, rfl, .of_computeEx _ b a rfl rfl (by simp)⟩
  | div b a => exact .inl ⟨_, rfl, .of_computeEx _ b a rfl rfl (by simp)⟩
  | dvi b a => exact .inl ⟨_, rfl, .of_computeEx _ b a rfl rfl (by simp)⟩
  | mod b a => exact .inl ⟨_, rfl, .of_compute _ b a rfl (by simp)⟩
  | mdi b a => exact .inl ⟨_, rfl, .of_compute _ b a rfl (by simp)⟩
  | and b a => exact .inl ⟨_, rfl, .of_compute _ b a rfl (by simp)⟩
  | bor b a => exact .inl ⟨_, rfl, .of_compute _ b a rfl (by simp)⟩
  | xor b a => exact .inl ⟨_, rfl, .of_compute _ b a rfl (by simp)⟩
  | shr b a => exact .inl ⟨_, rfl, .of_computeEx _ b a rfl rfl (by simp)⟩
  | asr b a => exact .inl ⟨_, rfl, .of_computeEx _ b a rfl rfl (by simp)⟩
  | shl b a => exact .inl ⟨_, rfl, .of_computeEx _ b a rfl rfl (by simp)⟩
  | ifb b a => exact cond _ b a rfl rfl
  | ifc b a => exact cond _ b a rfl rfl
  | ife b a => exact cond _ b a rfl rfl
  | ifn b a => exact cond _ b a rfl rfl
  | ifg b a => exact cond _ b a rfl rfl
  | ifa b a => exact cond _ b a rfl rfl
  | ifl b a => exact cond _ b a rfl rfl
  | ifu b a => exact cond _ b a rfl rfl
  | adx b a => exact .inl ⟨_, rfl, .of_computeEx _ b a rfl rfl (by simp)⟩
  | sbx b a => exact .inl ⟨_, rfl, .of_computeEx _ b a rfl rfl (by simp)⟩
  | sti b a => exact .inl ⟨_, rfl, .of_copy _ b a rfl⟩
  | std b a => exact .inl ⟨_, rfl, .of_copy _ b a rfl⟩
  | jsr a => exact .inl ⟨_, rfl, .of_byMode a fun h => by rw [jsrWired, readSpecial_state]; exact .calls a _ _ _ _ rfl h⟩
  | int a => exact .inl ⟨_, rfl, .of_byMode a fun h => by rw [intWired, readSpecial_state]; exact .enqueues a _ _ _ rfl h⟩
  | iag a =>
    exact .inl ⟨_, rfl, .of_byMode a fun h => .of_writeOperand a _ _ s.sp rfl fun _ => .inr h⟩
  | ias a => exact .inl ⟨_, rfl, .of_byMode a fun h => by rw [iasWired, readSpecial_state]; exact .setsIa a _ _ _ rfl h⟩
  | rfi a => exact .inl ⟨_, rfl, .of_byMode a fun h => .returns a _ rfl h⟩
  | iaq a => exact .inl ⟨_, rfl, .of_byMode a fun h => by rw [iaqWired, readSpecial_state]; exact .switches a _ _ _ rfl h⟩
  | hwn a => exact .inl ⟨_, rfl, .of_advance _⟩
  | hwq a => exact .inl ⟨_, rfl, .of_advance _⟩
  | hwi a => exact .inl ⟨_, rfl, .of_advance _⟩
  | invalidBasicOpcode o b a =>
    have hl : basicLength b a = (Instr.invalidBasicOpcode o b a).length := by
      simp only [basicLength, Instr.length, Instr.extraWords, Instr.form, Nat.add_assoc]
    obtain ⟨q, hq, hd⟩ : ∃ q, (q = s.sp ∨ q = s.sp + 1 ∨ q = s.sp + 2) ∧
        discardBasic P.invalidReadsOperands b a s = { s with pc := s.pc + BitVec.ofNat 16 (basicLength b a), sp := q } := by
      cases P.invalidReadsOperands
      · exact ⟨s.sp, .inl rfl, rfl⟩
      · refine ⟨_, ?_, readBoth_after b a s⟩
        rcases popMove_cases a with ha | ha <;> rcases popMove_cases b with hb | hb <;> simp [ha, hb, BitVec.add_assoc]
    refine .inl ⟨_, rfl, ?_⟩
    rw [faultBasic, hd, hl]
    exact .faults _ _ _ (.inl ⟨o, b, a, rfl⟩) (by simp) hq
  | invalidSpecialOpcode c a =>
    obtain ⟨q, hq, hd⟩ : ∃ q, (q = s.sp ∨ q = s.sp + 1 ∨ q = s.sp + 2) ∧
        discardSpecial P.invalidReadsOperands a s = { s with pc := s.pc + BitVec.ofNat 16 (specialLength a), sp := q } := by
      cases P.invalidReadsOperands
      · exact ⟨s.sp, .inl rfl, rfl⟩
      · refine ⟨_, ?_, readSpecial_state a s⟩
        rcases popMove_cases a with ha | ha <;> simp [ha]
    refine .inl ⟨_, rfl, ?_⟩
    rw [faultSpecial, hd]
    exact .faults _ _ _ (.inr ⟨c, a, rfl⟩) (by simp) hq

/-- This machine is the parametric one at its own parameters (R9). -/
theorem exec_eq (i : Instr) (s : State) : exec i s = execUnder params i s := by cases i <;> rfl

/-- Every instruction completes at every state of this machine, with one of the effects. -/
theorem exec_next (i : Instr) (s : State) : ∃ t, exec i s = .next t ∧ Effect params i s t := by
  rw [exec_eq]
  rcases execUnder_cases params i s with h | ⟨h, -⟩
  · exact h
  · cases h

/-- If an instruction answers a next state, that state is one of the effects. -/
theorem exec_effect {i : Instr} {s t : State} (h : exec i s = .next t) : Effect params i s t := by
  obtain ⟨u, hu, he⟩ := exec_next i s
  rw [hu] at h
  exact (Host.Outcome.next.inj h) ▸ he

end Sys2Proof.Machine
end

