-- ==== Sys2Proof/Laws/PerInstr.lean ====
section
/-! SUPPORT. One family of statements about the instructions as syntax: the encoder writes as many words as the length
rule counts (30_encoding.md R77, R78). -/

namespace Sys2Proof.Laws.WordCount

/-- The encoder writes `i.length` words. -/
def Statement (i : Instr) : Prop := (encode i).length = i.length

theorem operandExtra_length (op : Operand) : (operandExtra op).length = op.extraWords := by cases op <;> rfl

/-- Under any numbering, by the form of the instruction. -/
theorem encodeUnder_length (num : Numbering) (i : Instr) : (encodeUnder num i).length = i.length := by
  simp only [encodeUnder, Instr.length, Instr.viewUnder, Instr.extraWords]
  cases i.form <;> simp [basicView, specialView, operandExtra_length, Nat.add_comm]

theorem of_form (i : Instr) : Statement i := encodeUnder_length dcpu16Numbering i

theorem set (b a : Operand) : Statement (.set b a) := of_form _
theorem add (b a : Operand) : Statement (.add b a) := of_form _
theorem sub (b a : Operand) : Statement (.sub b a) := of_form _
theorem mul (b a : Operand) : Statement (.mul b a) := of_form _
theorem mli (b a : Operand) : Statement (.mli b a) := of_form _
theorem div (b a : Operand) : Statement (.div b a) := of_form _
theorem dvi (b a : Operand) : Statement (.dvi b a) := of_form _
theorem mod (b a : Operand) : Statement (.mod b a) := of_form _
theorem mdi (b a : Operand) : Statement (.mdi b a) := of_form _
theorem and (b a : Operand) : Statement (.and b a) := of_form _
theorem bor (b a : Operand) : Statement (.bor b a) := of_form _
theorem xor (b a : Operand) : Statement (.xor b a) := of_form _
theorem shr (b a : Operand) : Statement (.shr b a) := of_form _
theorem asr (b a : Operand) : Statement (.asr b a) := of_form _
theorem shl (b a : Operand) : Statement (.shl b a) := of_form _
theorem ifb (b a : Operand) : Statement (.ifb b a) := of_form _
theorem ifc (b a : Operand) : Statement (.ifc b a) := of_form _
theorem ife (b a : Operand) : Statement (.ife b a) := of_form _
theorem ifn (b a : Operand) : Statement (.ifn b a) := of_form _
theorem ifg (b a : Operand) : Statement (.ifg b a) := of_form _
theorem ifa (b a : Operand) : Statement (.ifa b a) := of_form _
theorem ifl (b a : Operand) : Statement (.ifl b a) := of_form _
theorem ifu (b a : Operand) : Statement (.ifu b a) := of_form _
theorem adx (b a : Operand) : Statement (.adx b a) := of_form _
theorem sbx (b a : Operand) : Statement (.sbx b a) := of_form _
theorem sti (b a : Operand) : Statement (.sti b a) := of_form _
theorem std (b a : Operand) : Statement (.std b a) := of_form _
theorem jsr (a : Operand) : Statement (.jsr a) := of_form _
theorem int (a : Operand) : Statement (.int a) := of_form _
theorem iag (a : Operand) : Statement (.iag a) := of_form _
theorem ias (a : Operand) : Statement (.ias a) := of_form _
theorem rfi (a : Operand) : Statement (.rfi a) := of_form _
theorem iaq (a : Operand) : Statement (.iaq a) := of_form _
theorem hwn (a : Operand) : Statement (.hwn a) := of_form _
theorem hwq (a : Operand) : Statement (.hwq a) := of_form _
theorem hwi (a : Operand) : Statement (.hwi a) := of_form _
theorem invalidBasicOpcode (o : BitVec 5) (b a : Operand) : Statement (.invalidBasicOpcode o b a) := of_form _
theorem invalidSpecialOpcode (code : BitVec 5) (a : Operand) : Statement (.invalidSpecialOpcode code a) :=
  of_form _

end Sys2Proof.Laws.WordCount
end

