-- ==== Sys2Proof/Laws/Step.lean ====
section
/-! SUPPORT. What a step can do, once: `step_cases`. -/

namespace Sys2Proof.Machine

/-- A step answers the state itself where the machine is halted (R100); otherwise it answers what the fetched
instruction leaves, after one delivery attempt unless that latched a fault (R101, R104). -/
theorem step_cases {s t : State} (h : step s = .next t) :
    (s.error.isSome = true ∧ t = s) ∨
      (s.error = none ∧ ∃ u, exec (fetch s).1 s = .next u ∧ Effect params (fetch s).1 s u ∧
        ((u.error.isSome = true ∧ t = u) ∨ (u.error = none ∧ t = attemptDelivery u))) := by
  unfold step at h
  split at h
  · next he => exact .inl ⟨he, (Host.Outcome.next.inj h).symm⟩
  · next he =>
    refine .inr ⟨by simpa using he, ?_⟩
    obtain ⟨u, hu, hf⟩ := exec_next (fetch s).1 s
    rw [hu] at h
    refine ⟨u, hu, hf, ?_⟩
    have h := Host.Outcome.next.inj h
    unfold endOfStep at h
    split at h
    · next hue => exact .inl ⟨hue, h.symm⟩
    · next hue => exact .inr ⟨by simpa using hue, h.symm⟩

/-- A step of a machine that is not halted runs the fetched instruction (R101). -/
theorem step_of_exec {s u : State} (he : s.error = none) (hu : exec (fetch s).1 s = .next u) :
    step s = .next (if u.error.isSome then u else attemptDelivery u) := by
  simp [step, he, hu, endOfStep]

/-- This machine's step is the parametric one at its own parameters (R9). -/
theorem step_eq (s : State) : step s = stepUnder params s := by
  unfold step stepUnder
  rw [exec_eq]
  rfl

/-- What this machine's step returns is what the parametric one returns at its own parameters (R9). -/
theorem stepReturn_eq (s : State) : stepReturn s = stepReturnUnder params s := by
  unfold stepReturn stepReturnUnder
  rw [exec_eq]
  rfl

/-- What a step can do under any parameters: as `step_cases`, or, under Wrap only, the fault `skipNeverEnds`. -/
theorem stepUnder_cases (P : Params) (s : State) :
    (s.error.isSome = true ∧ stepUnder P s = .next s) ∨
      (s.error = none ∧ ∃ u, Effect P (fetchUnder P.opcodeNumbering s).1 s u ∧ stepUnder P s = .next (endOfStep u)) ∨
      (s.error = none ∧ P.skipEndPolicy = .wrap ∧ (fetchUnder P.opcodeNumbering s).1.isConditional = true ∧
        stepUnder P s = .fault .skipNeverEnds) := by
  cases he : s.error with
  | some e => exact .inl ⟨rfl, by simp [stepUnder, he]⟩
  | none =>
    rcases execUnder_cases P (fetchUnder P.opcodeNumbering s).1 s with ⟨u, hu, hf⟩ | ⟨hp, hc, hu⟩
    · exact .inr (.inl ⟨rfl, u, hf, by simp [stepUnder, he, hu]⟩)
    · exact .inr (.inr ⟨rfl, hp, hc, by simp [stepUnder, he, hu]⟩)

end Sys2Proof.Machine
end

