-- ==== Sys2Proof/Tests/Slice0.lean ====
section
/-! SUPPORT. The model's own tests. Every expected value is a vector of 95_test_vectors.md (its name stands in the
comment) or a hand calculation from the rule named; the words are written out from 30_encoding.md. After them, for each
obligation with hypotheses, a concrete case that meets them together. -/

namespace Sys2Proof.Tests

open Sys2Proof Sys2Proof.Machine

/-! ## Small states -/

/-- Reset, with words loaded from address 0. -/
def load (ws : List Word) : State := storeWords 0 ws State.reset

/-- The same with A and B set. -/
def loadAB (ws : List Word) (a b : Word) : State := { load ws with regs := { State.reset.regs with a := a, b := b } }

/-- A next state seen through a projection. -/
def seen {α : Type} (o : Outcome) (f : State → α) : Option α :=
  match o with
  | .next t => some (f t)
  | .fault _ => none
  | .refused _ => none

/-- What one step leaves, seen through a projection. -/
def after {α : Type} (s : State) (f : State → α) : Option α := seen (step s) f

/-- A and EX after one step of `op A, B` (word `0x0400 | o`). -/
def arith (w a b : Word) : Option (Word × Word) := after (loadAB [w] a b) fun t => (t.regs.a, t.ex)

/-- The PC after one step of `IFx A, B` followed by `SET B, 1`. -/
def branch (w a b : Word) : Option Word := after (loadAB [w, 0x8821] a b) State.pc

/-- The common start of the V-OPND vectors. -/
def operandStart (ws : List Word) : State :=
  storeWords 0 ws { State.reset with
    regs := { State.reset.regs with b := 0x0100 }, sp := 0x0FFE, ex := 0x7777
    mem := [(0x0100, 0x1111), (0x0105, 0x2222), (0x0200, 0x6666), (0x0FFE, 0x3333), (0x0FFF, 0x4444)] }

/-- A after one step of `SET A, <a>`, and SP. -/
def readTest (ws : List Word) : Option (Word × Word) := after (operandStart ws) fun t => (t.regs.a, t.sp)

/-- A memory word, SP and PC after one step of `SET <b>, 7`. -/
def writeTest (ws : List Word) (x : Word) : Option (Word × Word × Word) :=
  after (operandStart ws) fun t => (t.mem.read x, t.sp, t.pc)

/-! ## Well-formedness: one ill-formed term for each check -/

/-- R74: the inline range is −1 and 0 to 30. -/
theorem test_wf_inline : (Instr.set (.regVal .a) (.inlineLit 31)).wf = false ∧
    (Instr.set (.regVal .a) (.inlineLit 0xFFFE)).wf = false ∧ (Instr.jsr (.inlineLit 31)).wf = false ∧
    (Instr.set (.regVal .a) (.inlineLit 30)).wf = true ∧ (Instr.set (.regVal .a) (.inlineLit 0xFFFF)).wf = true := by
  decide

/-- R80: field `b` never holds an inline literal. -/
theorem test_wf_b_field : (Instr.add (.inlineLit 1) (.regVal .a)).wf = false := by decide

/-- R85, R86: only unassigned numbers are invalid opcodes. -/
theorem test_wf_unassigned : (Instr.invalidBasicOpcode 0x01 .peek .peek).wf = false ∧
    (Instr.invalidBasicOpcode 0x00 .peek .peek).wf = false ∧ (Instr.invalidSpecialOpcode 0x01 .peek).wf = false ∧
    (Instr.invalidBasicOpcode 0x1d .peek .peek).wf = true ∧ (Instr.invalidSpecialOpcode 0x13 .peek).wf = true := by
  decide

/-! ## Decoding: a word for every constructor -/

/-- R83: `(0x01 << 10) | (0x00 << 5) | o`, which is `op A, B`. -/
theorem test_decode_basic : ∀ p ∈ [((0x0401 : Word), Instr.set), (0x0402, .add), (0x0403, .sub), (0x0404, .mul),
      (0x0405, .mli), (0x0406, .div), (0x0407, .dvi), (0x0408, .mod), (0x0409, .mdi), (0x040A, .and), (0x040B, .bor),
      (0x040C, .xor), (0x040D, .shr), (0x040E, .asr), (0x040F, .shl), (0x0410, .ifb), (0x0411, .ifc), (0x0412, .ife),
      (0x0413, .ifn), (0x0414, .ifg), (0x0415, .ifa), (0x0416, .ifl), (0x0417, .ifu), (0x041A, .adx), (0x041B, .sbx),
      (0x041E, .sti), (0x041F, .std)],
    decodeWords [p.1] = .ok (p.2 (.regVal .a) (.regVal .b), []) := by decide

/-- R84: `(0x18 << 10) | (code << 5)`, which is `op POP`. -/
theorem test_decode_special : ∀ p ∈ [((0x6020 : Word), Instr.jsr), (0x6100, .int), (0x6120, .iag), (0x6140, .ias),
      (0x6160, .rfi), (0x6180, .iaq), (0x6200, .hwn), (0x6220, .hwq), (0x6240, .hwi)],
    decodeWords [p.1] = .ok (p.2 .pushPop, []) := by decide

/-- R85, R86. -/
theorem test_decode_invalid :
    (∀ o ∈ [(0x18 : BitVec 5), 0x19, 0x1c, 0x1d],
      decodeWords [o.setWidth 16] = .ok (.invalidBasicOpcode o (.regVal .a) (.regVal .a), [])) ∧
    (∀ c ∈ [(0x00 : BitVec 5), 0x02, 0x07, 0x0d, 0x0f, 0x13, 0x1f],
      decodeWords [c.setWidth 16 <<< 5] = .ok (.invalidSpecialOpcode c (.regVal .a), [])) := by decide

/-- R74 at both ends: 0x20 is −1 and 0x3f is 30; W6 for 0x10. -/
theorem test_decode_inline : decodeWords [0x8001] = .ok (.set (.regVal .a) (.inlineLit 0xFFFF), []) ∧
    decodeWords [0xFC01] = .ok (.set (.regVal .a) (.inlineLit 30), []) ∧
    decodeWords [0xC401] = .ok (.set (.regVal .a) (.inlineLit 0x10), []) := by decide

/-- R77: the extra word of `a` comes before that of `b`; a list that ends too early is refused by name. -/
theorem test_decode_extra_words :
    decodeWords [0x7FC1, 0xBEEF, 0x3000, 0x0401] = .ok (.set (.absInd 0x3000) (.absLit 0xBEEF), [0x0401]) ∧
    decodeWords [0x7FC1, 0xBEEF] = .error .truncated ∧ decodeWords [] = .error .truncated := by decide

/-- The encoder on the same words. -/
theorem test_encode : encode (.set (.absInd 0x3000) (.absLit 0xBEEF)) = [0x7FC1, 0xBEEF, 0x3000] ∧
    encode (.sti (.regInd .i) (.regInd .j)) = [0x3DDE] ∧ encode (.ias (.absInd 0x20)) = [0x7940, 0x0020] ∧
    encode (.invalidSpecialOpcode 0x02 .pushPop) = [0x6040] := by decide

/-- R82: in a bounded buffer the extra word wraps to its start. -/
theorem test_decode_buffer : decodeBuffer [0x1234, 0x7C01] 1 = some (.set (.regVal .a) (.absLit 0x1234), 2) ∧
    decodeBuffer [] 0 = none := by decide

/-- The opcode table's numbering: bit 16 is bit 0 of the second word, and missing words are zero. -/
theorem test_table_word : decodeTableWord 32 0x12347C01 = some (.set (.regVal .a) (.absLit 0x1234)) ∧
    decodeTableWord 16 0x7C01 = some (.set (.regVal .a) (.absLit 0)) := by decide

/-! ## Operands: V-OPND -/

/-- V-OPND-1, 2, 3, 4, 5. -/
theorem test_read_memory : readTest [0x2401] = some (0x1111, 0x0FFE) ∧ readTest [0x4401, 5] = some (0x2222, 0x0FFE) ∧
    readTest [0x6001] = some (0x3333, 0x0FFF) ∧ readTest [0x6401] = some (0x3333, 0x0FFE) ∧
    readTest [0x6801, 1] = some (0x4444, 0x0FFE) := by decide

/-- V-OPND-6 to V-OPND-10. -/
theorem test_read_special : readTest [0x6C01] = some (0x0FFE, 0x0FFE) ∧ readTest [0x7001] = some (1, 0x0FFE) ∧
    readTest [0x7401] = some (0x7777, 0x0FFE) ∧ readTest [0x7801, 0x200] = some (0x6666, 0x0FFE) ∧
    readTest [0x7C01, 0x200] = some (0x0200, 0x0FFE) := by decide

/-- V-OPND-11 to V-OPND-15, V-OPND-18. -/
theorem test_write_memory : writeTest [0xA121] 0x0100 = some (7, 0x0FFE, 1) ∧
    writeTest [0xA221, 5] 0x0105 = some (7, 0x0FFE, 2) ∧ writeTest [0xA301] 0x0FFD = some (7, 0x0FFD, 1) ∧
    writeTest [0xA321] 0x0FFE = some (7, 0x0FFE, 1) ∧ writeTest [0xA341, 1] 0x0FFF = some (7, 0x0FFE, 2) ∧
    writeTest [0xA3C1, 0x200] 0x0200 = some (7, 0x0FFE, 2) := by decide

/-- V-OPND-19, 20, 22, 23, 24: a pop's increment lost, a push of SP, pop then push of one `b`, order of the extra words,
and a wrapping address. -/
theorem test_operand_corners : after (operandStart [0x6361]) State.sp = some 0x3333 ∧
    writeTest [0x6F01] 0x0FFD = some (0x0FFE, 0x0FFD, 1) ∧ writeTest [0x8B02] 0x0FFE = some (0x3334, 0x0FFE, 1) ∧
    writeTest [0x7A22, 0x0200, 0x0005] 0x0105 = some (0x8888, 0x0FFE, 3) ∧
    writeTest [0x8A21, 0xFF00] 0 = some (1, 0x0FFE, 2) := by decide

/-- V-OPND-25: `ADD EX, 1` under both orders (R126). -/
theorem test_ex_order : (writeResult .resultThenEx .exReg 0x7778 0 State.reset).ex = 0 ∧
    (writeResult .exThenResult .exReg 0x7778 0 State.reset).ex = 0x7778 := by decide

/-! ## Values -/

/-- V-SET-2 and V-SET-4. -/
theorem test_set : after (load [0x8001]) (·.regs.a) = some 0xFFFF ∧ after (load [0xA381]) State.pc = some 7 := by decide

/-- V-SET-5 and V-SET-6: a write to a literal does nothing, and PC reads as the advanced PC. -/
theorem test_set_literal : after (load [0xA3E1, 0x0200]) (fun t => (t.pc, t.mem.read 2, t.mem.read 0x200)) = some (2, 0, 0) ∧
    after (load [0x7381]) State.pc = some 1 := by decide

/-- V-ARITH-2, 3. -/
theorem test_add : arith 0x0402 0xFFFF 1 = some (0, 1) ∧ arith 0x0402 0xFFFF 0xFFFF = some (0xFFFE, 1) := by decide

/-- V-ARITH-4, 5. -/
theorem test_sub : arith 0x0403 3 5 = some (0xFFFE, 0xFFFF) ∧ arith 0x0403 0x8000 1 = some (0x7FFF, 0) := by decide

/-- V-ARITH-6, 7. -/
theorem test_mul : arith 0x0404 0x0100 0x0100 = some (0, 1) ∧ arith 0x0404 0xFFFF 0xFFFF = some (1, 0xFFFE) := by decide

/-- V-ARITH-11, 12. -/
theorem test_mli : arith 0x0405 0xFFFF 2 = some (0xFFFE, 0xFFFF) ∧ arith 0x0405 0x8000 0x8000 = some (0, 0x4000) := by
  decide

/-- V-ARITH-15, 16, 18. -/
theorem test_div : arith 0x0406 7 2 = some (3, 0x8000) ∧ arith 0x0406 1 3 = some (0, 0x5555) ∧
    arith 0x0406 0x1234 0 = some (0, 0) := by decide

/-- V-ARITH-20, 21, 23. -/
theorem test_dvi : arith 0x0407 0xFFF9 2 = some (0xFFFD, 0x8000) ∧ arith 0x0407 7 0xFFFE = some (0xFFFD, 0x8000) ∧
    arith 0x0407 1 0xFFFD = some (0, 0xAAAB) := by decide

/-- V-ARITH-24, 25. -/
theorem test_dvi_corners : arith 0x0407 0x8000 0xFFFF = some (0x8000, 0) ∧ arith 0x0407 0x8000 0 = some (0, 0) := by
  decide

/-- V-ARITH-27, 28. -/
theorem test_mod : arith 0x0408 0xFFFF 0x0010 = some (0x000F, 0) ∧ arith 0x0408 5 0 = some (0, 0) := by decide

/-- V-ARITH-29, 30, 31, 32. -/
theorem test_mdi : arith 0x0409 0xFFF9 0x0010 = some (0xFFF9, 0) ∧ arith 0x0409 7 0xFFFE = some (1, 0) ∧
    arith 0x0409 0xFFF9 0xFFFE = some (0xFFFF, 0) ∧ arith 0x0409 0x8000 0xFFFF = some (0, 0) := by decide

/-- V-LOGIC-1. -/
theorem test_and : arith 0x040A 0xF0F0 0xFF00 = some (0xF000, 0) := by decide

/-- V-LOGIC-2. -/
theorem test_bor : arith 0x040B 0xF0F0 0x0F00 = some (0xFFF0, 0) := by decide

/-- V-LOGIC-3. -/
theorem test_xor : arith 0x040C 0xFFFF 0x00FF = some (0xFF00, 0) := by decide

/-- V-SHIFT-1, 2, 4. -/
theorem test_shr : arith 0x040D 0x8001 1 = some (0x4000, 0x8000) ∧ arith 0x040D 0x8001 0x10 = some (0, 0x8001) ∧
    arith 0x040D 0x1234 0x20 = some (0, 0) := by decide

/-- V-SHIFT-5, 6, 7, 10. -/
theorem test_asr : arith 0x040E 0x8001 1 = some (0xC000, 0x8000) ∧ arith 0x040E 0x8001 0x10 = some (0xFFFF, 0x8001) ∧
    arith 0x040E 0x8001 0x28 = some (0xFFFF, 0) ∧ arith 0x040E 0x8000 0x0F = some (0xFFFF, 0) := by decide

/-- V-SHIFT-11, 13, 14. -/
theorem test_shl : arith 0x040F 0x1234 4 = some (0x2340, 1) ∧ arith 0x040F 0x8001 0x10 = some (0, 0x8001) ∧
    arith 0x040F 0x8001 0x11 = some (0, 2) := by decide

/-- V-CARRY-2, 3. -/
theorem test_adx : after { loadAB [0x041A] 0xFFFF 0 with ex := 1 } (fun t => (t.regs.a, t.ex)) = some (0, 1) ∧
    after { loadAB [0x041A] 0xFFFF 0xFFFF with ex := 0xFFFF } (fun t => (t.regs.a, t.ex)) = some (0xFFFD, 2) := by decide

/-- V-CARRY-6, 7. -/
theorem test_sbx : after { loadAB [0x041B] 0 0 with ex := 1 } (fun t => (t.regs.a, t.ex)) = some (0xFFFF, 0xFFFF) ∧
    after { loadAB [0x041B] 0 0xFFFF with ex := 0xFFFF } (fun t => (t.regs.a, t.ex)) = some (2, 0xFFFE) := by decide

/-- V-CARRY-9, 12, under `SBX_EX_SIGN = Plus`. -/
theorem test_sbx_plus : sbxResult .plus 5 3 1 = { res := 3, exv := 0 } ∧
    sbxResult .plus 3 5 0 = { res := 0xFFFE, exv := 0xFFFF } := by decide

/-- V-STORE-2, 4: the write to `b` comes before the increment. -/
theorem test_sti : after (load [0x98DE]) (fun t => (t.regs.i, t.regs.j)) = some (6, 1) ∧
    after (load [0xA31E]) (fun t => (t.sp, t.mem.read 0xFFFF, t.regs.i, t.regs.j)) = some (0xFFFF, 7, 1, 1) := by decide

/-- V-STORE-1, 3. -/
theorem test_std : after { load [0x3DDF] with
      regs := { State.reset.regs with i := 0x1000, j := 0x2000 }, mem := [(0, 0x3DDF), (0x2000, 0xBEEF)] }
      (fun t => (t.mem.read 0x1000, t.regs.i, t.regs.j)) = some (0xBEEF, 0x0FFF, 0x1FFF) ∧
    after (load [0x84FF]) (fun t => (t.regs.i, t.regs.j)) = some (0xFFFF, 0xFFFF) := by decide

/-! ## Conditionals: V-IF -/

theorem test_ifb : branch 0x0410 0xF0 0x10 = some 1 ∧ branch 0x0410 0xF0 0x0F = some 2 := by decide
theorem test_ifc : branch 0x0411 0xF0 0x0F = some 1 ∧ branch 0x0411 0xF0 0x10 = some 2 := by decide
theorem test_ife : branch 0x0412 5 5 = some 1 ∧ branch 0x0412 5 6 = some 2 := by decide
theorem test_ifn : branch 0x0413 5 6 = some 1 ∧ branch 0x0413 5 5 = some 2 := by decide
theorem test_ifg : branch 0x0414 0x8000 1 = some 1 ∧ branch 0x0414 1 1 = some 2 := by decide
theorem test_ifa : branch 0x0415 0x8000 1 = some 2 ∧ branch 0x0415 1 0xFFFF = some 1 := by decide
theorem test_ifl : branch 0x0416 1 0x8000 = some 1 ∧ branch 0x0416 0x8000 1 = some 2 := by decide
theorem test_ifu : branch 0x0417 0x8000 1 = some 1 ∧ branch 0x0417 5 5 = some 2 := by decide

/-- V-IF-2, V-IF-4, V-IF-5: the skip chain, and that a skipped word is only decoded. -/
theorem test_skip : after (loadAB [0x8412, 0x8432, 0x8841] 1 0) (fun t => (t.pc, t.regs.c)) = some (3, 0) ∧
    after (loadAB [0x8412, 0x6018] 1 0) (fun t => (t.pc, t.sp, t.error)) = some (2, 0, none) ∧
    after (loadAB [0x8412, 0x7FC1, 0xBEEF, 0x3000, 0x8821] 1 0) (fun t => (t.pc, t.mem.read 0x3000)) = some (4, 0) := by
  decide

/-- V-IF-8: the end of the chain at the top of memory, under both policies. -/
theorem test_skip_end : let m : Memory := [(0, 0x8841), (0xFFFE, 0x8412), (0xFFFF, 0x8432)]
    skipChain .stopAtTop m 0xFFFE 1 = some (65536, 1) ∧ skipChain .wrap m 0xFFFE 1 = some (65537, 2) := by decide

/-- V-IF-9: nothing left to skip, or the word at address 0, decoded only. -/
theorem test_skip_nothing_left : skipChain .stopAtTop [] 0xFFFF 1 = some (65536, 0) ∧
    skipChain .wrap [] 0xFFFF 1 = some (65537, 1) := by decide

/-! ## Special instructions: V-SPEC, in the mode named -/

/-- V-SPEC-1, 2. -/
theorem test_jsr : (let t := jsrWired (.inlineLit 0x10) { State.reset with pc := 5 };
      (t.pc, t.sp, t.mem.read 0xFFFF) = (0x10, 0xFFFF, 6)) ∧
    (let t := jsrWired .pushPop { State.reset with sp := 0xFFF0, mem := [(0xFFF0, 0x40)] };
      (t.pc, t.sp, t.mem.read 0xFFF0) = (0x40, 0xFFF0, 1)) := by decide

/-- V-SPEC-3, 4: with the delivery at the end of the step. -/
theorem test_int : (let t := attemptDelivery (intWired (.inlineLit 5) { State.reset with ia := 0x0100 });
      (t.regs.a, t.pc, t.sp, t.mem.read 0xFFFF, t.queueInterrupts, t.queue) = (5, 0x0100, 0xFFFE, 1, true, [])) ∧
    (let t := attemptDelivery (intWired (.inlineLit 5) State.reset);
      (t.pc, t.queue, t.sp) = (1, [], 0)) := by decide

/-- V-SPEC-5, 6. -/
theorem test_iag : (iagWired (.regVal .a) { State.reset with ia := 0x0100 }).regs.a = 0x0100 ∧
    (let t := iagWired .pushPop { State.reset with ia := 0x0100 };
      (t.sp, t.mem.read 0xFFFF) = (0xFFFF, 0x0100)) := by decide

/-- V-SPEC-7, 8. -/
theorem test_ias : (iasWired (.inlineLit 10) State.reset).ia = 10 ∧
    (let t := iasWired (.absInd 0x20) { State.reset with mem := [(0x20, 0x0300)] };
      (t.ia, t.pc) = (0x0300, 2)) := by decide

/-- V-SPEC-9, 10. -/
theorem test_rfi :
    let s : State :=
      { State.reset with sp := 0xFFFE, mem := [(0xFFFE, 0x1111), (0xFFFF, 0x0042)], queueInterrupts := true }
    (let t := rfiWired (.inlineLit 0) s;
      (t.regs.a, t.pc, t.sp, t.queueInterrupts) = (0x1111, 0x0042, 0, false)) ∧
    (let t := attemptDelivery (rfiWired (.inlineLit 0) { s with ia := 0x0200, queue := [9] });
      (t.regs.a, t.pc, t.sp, t.mem.read 0xFFFF, t.mem.read 0xFFFE) = (9, 0x0200, 0xFFFE, 0x0042, 0x1111)) := by decide

/-- V-SPEC-11, 12, 13. -/
theorem test_iaq : (iaqWired (.inlineLit 1) State.reset).queueInterrupts = true ∧
    (iaqWired (.inlineLit 0) { State.reset with queueInterrupts := true }).queueInterrupts = false ∧
    (iaqWired (.inlineLit 5) { State.reset with queueInterrupts := true }).queueInterrupts = true := by decide

/-- V-SPEC-2, 3, 9 in `NoOp` mode: only the PC moves. -/
theorem test_no_op : byMode .noOp .pushPop (jsrWired .pushPop) State.reset = { State.reset with pc := 1 } ∧
    byMode .noOp (.inlineLit 5) (intWired (.inlineLit 5)) State.reset = { State.reset with pc := 1 } ∧
    byMode .noOp (.absInd 0x20) (iasWired (.absInd 0x20)) State.reset = { State.reset with pc := 2 } := by decide

/-- V-SPEC-14. -/
theorem test_hwn : after (load [0x0200]) (fun t => (t.pc, t.regs.a)) = some (1, 0) := by decide

/-- V-SPEC-15: no operand is read. -/
theorem test_hwq : after (load [0x6220]) (fun t => (t.pc, t.sp)) = some (1, 0) := by decide

/-- V-SPEC-16. -/
theorem test_hwi : after (load [0x7A40, 0x0020]) State.pc = some 2 := by decide

/-! ## Faults: V-FAULT -/

/-- W9 and P6: the basic format. -/
theorem test_invalid_basic :
    after (load [0x0018]) (fun t => (errorInspection t, t.halted, t.pc)) =
      some (some (.invalidOpcode, 0x18, 0), true, 1) ∧
    after { State.reset with pc := 1, sp := 0xFFF0, mem := [(1, 0x6018)] }
      (fun t => (t.error.map ErrorRecord.pc, t.pc, t.sp)) = some (some 1, 2, 0xFFF1) := by decide

/-- V-FAULT-1, 2, 3: the special format. -/
theorem test_invalid_special :
    after (load [0x0000]) errorInspection = some (some (.invalidSpecialOpcode, 0, 0)) ∧
    after (load [0x6040]) (fun t => (t.error.map ErrorRecord.data, t.sp)) = some (some 2, 1) ∧
    after (load [0x87E0]) (fun t => t.error.map ErrorRecord.data) = some (some 0x1F) := by decide

/-- The notes of V-FAULT and P6: the other values of both parameters. -/
theorem test_fault_parameters :
    (faultBasic true .advanced 0x18 (.regVal .a) .pushPop { State.reset with pc := 1 }).error.map ErrorRecord.pc
      = some 2 ∧
    (faultBasic false .instrStart 0x18 (.regVal .a) .pushPop { State.reset with sp := 0xFFF0 }).sp = 0xFFF0 ∧
    (faultSpecial false .advanced 0x02 .pushPop State.reset).sp = 0 := by decide

/-- V-FAULT-6: after ClearError the next step runs at the PC. -/
theorem test_clear_error :
    after (clearError { State.reset with
        pc := 1, mem := [(0, 0x0018)], halted := true, error := some (faultRecord .invalidOpcode 0x18 0) })
      errorInspection = some (some (.invalidSpecialOpcode, 0, 1)) := by decide

/-! ## Interrupts: V-INT -/

/-- The start of W8, with IA, QUEUE_INTERRUPTS and the queue to choose. -/
def interruptStart (ia : Word) (deferred : Bool) (queue : List Word) : State :=
  { loadAB [0x8821, 0x8821] 0x1111 0 with ia := ia, queueInterrupts := deferred, queue := queue }

/-- V-INT-2 (W8). -/
theorem test_delivery :
    after (interruptStart 0x0100 false [0x42, 0x43])
      (fun t => (t.regs.a, t.regs.b, t.pc, t.sp, t.mem.read 0xFFFF, t.mem.read 0xFFFE)) =
        some (0x42, 1, 0x0100, 0xFFFE, 1, 0x1111) ∧
    after (interruptStart 0x0100 false [0x42, 0x43]) (fun t => (t.queueInterrupts, t.queue)) = some (true, [0x43]) := by
  decide

/-- V-INT-3 and V-INT-4: deferred, and dropped. -/
theorem test_no_delivery :
    after (interruptStart 0x0100 true [0x42]) (fun t => (t.pc, t.sp, t.queue)) = some (1, 0, [0x42]) ∧
    after (interruptStart 0 false [0x42, 0x43]) (fun t => (t.pc, t.sp, t.queue)) = some (1, 0, [0x43]) := by decide

/-- A queue of `n` zero messages. -/
def queued (n : Nat) : State := { State.reset with queue := List.replicate n 0 }

/-- V-INT-7: a full queue, and one with room for a last message. -/
theorem test_queue_full : enqueue 0x7777 (queued 256) = ({ queued 256 with onFire := true }, false) ∧
    (enqueue 0x7777 (queued 255)).2 = true :=
  ⟨enqueue_full (Nat.le_of_eq (List.length_replicate ..).symm),
    by rw [enqueue_room (by rw [queued, List.length_replicate]; decide)]⟩

/-- V-FAULT-4: a faulting step delivers nothing. -/
theorem test_no_delivery_on_fault :
    after { load [0x0018] with ia := 0x0100, queue := [0x42] } (fun t => (t.queue, t.pc, t.sp)) = some ([0x42], 1, 0) := by
  decide

/-! ## Costs: V-COST, and the host's operations -/

/-- V-COST-2, 3, 5, 6, 7. -/
theorem test_cost : stepReturn (load [0x7C01, 0x0200]) = some (.cycles 2) ∧
    stepReturn (load [0x7A22, 0x0200, 0x0005]) = some (.cycles 4) ∧
    stepReturn (loadAB [0x7C12, 0x0005] 5 0) = some (.cycles 3) ∧
    stepReturn (loadAB [0x8412, 0x8432, 0x7E52, 0x1234, 0x7FC1, 0xBEEF, 0x3000] 1 0) = some (.cycles 4) ∧
    stepReturn (load [0x7A40, 0x0020]) = some (.cycles 5) := by decide

/-- W1 to W5, V-SPEC: the base costs of every instruction (R292). -/
theorem test_base_cost : ([0x0401, 0x0402, 0x0403, 0x0404, 0x0405, 0x0406, 0x0407, 0x0408, 0x0409, 0x040A, 0x040B, 0x040C,
      0x040D, 0x040E, 0x040F, 0x0410, 0x0411, 0x0412, 0x0413, 0x0414, 0x0415, 0x0416, 0x0417, 0x041A, 0x041B, 0x041E,
      0x041F, 0x6020, 0x6100, 0x6120, 0x6140, 0x6160, 0x6180, 0x6200, 0x6220, 0x6240] : List Word).map
        (fun w => baseCost (decode fun _ => w).1) =
      [1, 2, 2, 2, 2, 3, 3, 3, 3, 1, 1, 1, 1, 1, 1, 2, 2, 2, 2, 2, 2, 2, 2, 3, 3, 2, 2, 3, 4, 1, 1, 3, 2, 2, 4, 4] := by
  decide

/-- V-COST-9: a faulting step and a halted step return Halted (R299, R100). -/
theorem test_cost_halted : stepReturn (load [0x0018]) = some .halted ∧
    stepReturn { load [0x0401] with error := some (faultRecord .invalidOpcode 0x18 0) } = some .halted := by
  decide

/-! ## Other parameters (R9) -/

/-- The default numbering with the numbers of SET and ADD exchanged. -/
def exchanged : Numbering :=
  { dcpu16Numbering with basic := fun o => dcpu16Basic (if o = 1 then 2 else if o = 2 then 1 else o) }

/-- `OPCODE_NUMBERING`: the word of ADD A, B is then SET A, B, in a step, in the decoder and in the encoder. -/
theorem test_numbering :
    seen (stepUnder { params with opcodeNumbering := exchanged } (loadAB [0x0402] 3 5)) (·.regs.a) = some 5 ∧
    (decodeUnder exchanged fun _ => 0x0402).1 = .set (.regVal .a) (.regVal .b) ∧
    encodeUnder exchanged (.set (.regVal .a) (.regVal .b)) = [0x0402] := by decide

/-- `SBX_EX_SIGN = Plus` (V-CARRY-9), `SKIP_END_POLICY = Wrap` (V-IF-9), `FAULT_PC = Advanced` and
`INVALID_READS_OPERANDS = false` (the notes of P6), in a step. -/
theorem test_other_parameters :
    let top : State := { loadAB [] 1 0 with pc := 0xFFFF, mem := [(0xFFFF, 0x8412)] }
    let bad : State := { State.reset with pc := 1, sp := 0xFFF0, mem := [(1, 0x6018)] }
    seen (stepUnder { params with sbxExSign := .plus } { loadAB [0x041B] 5 3 with ex := 1 }) (·.regs.a) = some 3 ∧
    seen (stepUnder { params with skipEndPolicy := .wrap } top) State.pc = some 1 ∧ after top State.pc = some 0 ∧
    seen (stepUnder { params with faultPc := .advanced } bad) (·.error.map ErrorRecord.pc) = some (some 2) ∧
    seen (stepUnder { params with invalidReadsOperands := false } bad) State.sp = some 0xFFF0 := by decide

/-- `SPECIAL_MODE`: JSR 0x10 (V-SPEC-1) in a step, wired and not. -/
theorem test_modes : let s : State := { State.reset with pc := 5, mem := [(5, 0xC420)] }
    seen (stepUnder { params with specialMode := .wired } s) (fun t => (t.pc, t.sp, t.mem.read 0xFFFF)) =
      some (0x10, 0xFFFF, 6) ∧
    seen (stepUnder { params with specialMode := .noOp } s) (fun t => (t.pc, t.sp)) = some (6, 0) := by decide

/-- `EX_WRITE_ORDER`: V-OPND-25, `ADD EX, 1`, in a step, under both values. -/
theorem test_orders : let s : State := { load [0x8BA2] with ex := 0x7777 }
    seen (stepUnder { params with exWriteOrder := .resultThenEx } s) State.ex = some 0 ∧
    seen (stepUnder { params with exWriteOrder := .exThenResult } s) State.ex = some 0x7778 := by decide

/-- `COST_TABLE`: V-COST-2's word under a table of sevens. -/
theorem test_cost_table : stepReturnUnder { params with costTable := { basic := fun _ => 7, special := fun _ => 7 } }
    (load [0x7C01, 0x0200]) = some (.cycles 8) := by decide

/-- R363 and R360. -/
theorem test_load : (hostLoad [1, 0, 3] { State.reset with mem := [(1, 7), (9, 9)] }).map State.mem =
      some [(0, 1), (2, 3), (9, 9)] ∧ hostReset (load [1]) = State.reset := by decide

/-- R91 and R315. -/
theorem test_inspection : decodeView 0 (load [0x6312]) =
      ({ special := false, code := 0x12, a := .pushPop, b := some .pushPop }, 1) ∧
    running (load []) = true ∧ errorInspection State.reset = none := by decide

/-- The word the host places is the one that the next step runs, after a fault too. -/
theorem test_with_fetch_word : after (State.reset.withFetchWord 16 0xC401) (·.regs.a) = some 0x10 ∧
    after ({ State.reset with pc := 0xFFFF, error := some (faultRecord .invalidOpcode 0 0) }.withFetchWord
      32 0x12347C01) (fun t => (t.regs.a, t.pc)) = some (0x1234, 1) := by decide

/-! ## Cases that meet the hypotheses of the obligations -/

/-- W5: A = 1 before `IFE A, 0`, `IFE B, 0`, `SET C, 1`. -/
def chainStart : State := loadAB [0x8412, 0x8432, 0x8841] 1 0

/-- The values of the eight tests, in the order of the opcode table. -/
def testValues (b a : Operand) (s : State) : List Bool :=
  let ra := readOperand a (s.advance (basicLength b a))
  let rb := readOperand b ra.2
  [rb.1 &&& ra.1 != 0, rb.1 &&& ra.1 == 0, rb.1 == ra.1, rb.1 != ra.1, ra.1.ult rb.1, ra.1.slt rb.1, rb.1.ult ra.1,
    rb.1.slt ra.1]

/-- DecodeOfEncodedWords: both ends of the inline range, and the forms with a field of their own. -/
theorem test_witness_DecodeOfEncodedWords : ∀ i ∈ [Instr.set (.regVal .j) (.inlineLit 30),
      .add (.regOffInd .b 5) (.absInd 0x200), .ife .pushPop (.inlineLit 0xFFFF), .jsr (.pick 0xFFFF),
      .invalidBasicOpcode 0x18 .exReg .pcReg, .invalidSpecialOpcode 0x1f .spReg], i.wf = true := by decide

/-- StepRunsDecodedInstruction, with an instruction of three words. -/
theorem test_witness_StepRunsDecodedInstruction :
    let i := Instr.add (.regOffInd .b 5) (.absInd 0x200)
    let s := load [0x7A22, 0x0200, 0x0005]
    s.error = none ∧ i.wf = true ∧
      ∀ (k : Nat) (h : k < (encode i).length), s.mem.read (s.pc + BitVec.ofNat 16 k) = (encode i)[k] := by decide

/-- HaltedStepChangesNothing. -/
theorem test_witness_HaltedStepChangesNothing :
    (faultBasic true .instrStart 0x18 .peek .peek State.reset).error ≠ none := by decide

/-- FaultingStepDeliversNothing: P6's second step. -/
theorem test_witness_FaultingStepDeliversNothing : ∃ t, step (load [0x6018]) = .next t ∧
    (load [0x6018]).error = none ∧ t.error ≠ none := ⟨_, rfl, by decide, by decide⟩

/-- StepKeepsInvariant: W8, with a message pending. -/
theorem test_witness_StepKeepsInvariant : (interruptStart 0x0100 false [0x42, 0x43]).Inv ∧
    ∃ t, step (interruptStart 0x0100 false [0x42, 0x43]) = .next t := ⟨by decide, _, rfl⟩

/-- EveryParameterKeepsInvariant: W8's state, and one whose next instruction is a conditional. -/
theorem test_witness_EveryParameterKeepsInvariant : (interruptStart 0x0100 false [0x42, 0x43]).Inv ∧ chainStart.Inv ∧
    (fetchUnder dcpu16Numbering chainStart).1.isConditional = true := by decide

/-- DeferralEndsOnlyByRfiOrIaq: a step with delivery deferred. -/
theorem test_witness_DeferralEndsOnlyByRfiOrIaq : (interruptStart 0x0100 true [0x42]).queueInterrupts = true := rfl

/-- HoldingConditionalOnlyReads and FailingConditionalSkipsItsChain: each of the eight tests holds on one of these pairs
and fails on another. -/
theorem test_witness_conditionals : let t := fun x y => testValues (.regVal .a) (.regVal .b) (loadAB [] x y)
    t 0x00F0 0x0010 = [true, false, false, true, true, true, false, false] ∧
    t 0x00F0 0x000F = [false, true, false, true, true, true, false, false] ∧
    t 0x0005 0x0005 = [true, false, true, false, false, false, false, false] ∧
    t 0x8000 0x0001 = [false, true, false, true, true, false, false, true] ∧
    t 0x0001 0x8000 = [false, true, false, true, false, true, true, false] := by decide

/-- NextNonConditionalIsSkippedAlone: V-IF-1, and the last position below the top of memory. -/
theorem test_witness_NextNonConditionalIsSkippedAlone :
    ∀ s ∈ [loadAB [0x8412, 0x8841] 1 0, { loadAB [] 1 0 with pc := 0xFFFE, mem := [(0xFFFE, 0x8412)] }],
      let b := Operand.regVal .a
      let a := Operand.inlineLit 0
      let n := basicLength b a
      let ra := readOperand a (s.advance n)
      let rb := readOperand b ra.2
      rb.1 ≠ ra.1 ∧ s.pc.toNat + n < 65536 ∧
        (decodeAt s.mem (s.pc + BitVec.ofNat 16 n)).1.isConditional = false := by decide

/-- The inner hypotheses of ResultAndExFrame, ResultFrame and AssignmentFrame: a destination in memory, an address
beside it, a register other than a destination register, and a register that is no cursor. -/
theorem test_witness_frames : let s := operandStart [0x7A22, 0x0200, 0x0005]
    let b := Operand.regOffInd .b 5
    let a := Operand.absInd 0x200
    b ≠ .spReg ∧ b ≠ .pcReg ∧ b ≠ .exReg ∧ (∀ r : Reg, b ≠ .regVal r) ∧
      storeAddress b (readBoth b a s).after = some 0x0105 ∧ storeAddress b (readBoth b a s).after ≠ some 0x0106 ∧
      storeAddress b (readA b a s).2 ≠ some 0x0104 ∧
      storeAddress (.regVal .a) (readBoth (.regVal .a) a s).after ≠ some 0x0105 ∧
      Operand.regVal .a ≠ .regVal .b ∧ (Reg.b ≠ .i ∧ Reg.b ≠ .j) := by
  refine ⟨by decide, by decide, by decide, fun r => by simp, by decide, by decide, by decide, by decide, by decide,
    by decide⟩

/-- The inner hypotheses of SpecialFrame: a destination of IAG that is none of the named ones, and addresses that are not
stored to. -/
theorem test_witness_SpecialFrame : let a := Operand.regInd .b
    a ≠ .spReg ∧ a ≠ .pushPop ∧ a ≠ .exReg ∧ a ≠ .pcReg ∧ a ≠ .regVal .a ∧ Reg.b ≠ .a ∧
      storeAddress a ((operandStart [0x2520]).advance (specialLength a)) = some 0x0100 ∧
      some (State.reset.sp + popMove a - 1) ≠ some (0x1000 : Word) := by decide

/-- EnqueuingASequenceKeepsTheFirst256: an empty and a full queue. -/
theorem test_witness_EnqueuingASequence : (queued 0).queue.length ≤ 256 ∧ (queued 256).queue.length ≤ 256 :=
  ⟨Nat.zero_le _, Nat.le_of_eq (List.length_replicate ..)⟩

/-- DeliveryEntersTheHandler and RfiUndoesDelivery: W8's state, with an address outside the frame and another register. -/
theorem test_witness_DeliveryEntersTheHandler : let s := interruptStart 0x0100 false [0x42, 0x43]
    s.queueInterrupts = false ∧ s.queue = 0x42 :: [0x43] ∧ s.ia ≠ 0 ∧
      (0x0010 : Word) ≠ s.sp - 1 ∧ (0x0010 : Word) ≠ s.sp - 2 ∧ Reg.b ≠ .a := by decide

/-- StepDeliversTheFrontMessage: W8. -/
theorem test_witness_StepDeliversTheFrontMessage : let s := interruptStart 0x0100 false [0x42, 0x43]
    ∃ u, s.error = none ∧ exec (fetch s).1 s = .next u ∧ u.error = none ∧ u.queueInterrupts = false ∧
      u.queue = 0x42 :: [0x43] ∧ u.ia ≠ 0 := ⟨_, rfl, rfl, by decide, by decide, by decide, by decide⟩

/-- CanonicalMemoriesThatReadAlikeAreEqual. -/
theorem test_witness_CanonicalMemories : let m : Memory := [(0, 5), (65535, 7)]
    let m' : Memory := (Memory.write [(0, 5)] 3 1).write 3 0 |>.write 0xFFFF 7
    m.wf ∧ m'.wf ∧ ∀ x, m.read x = m'.read x := ⟨by decide, by decide, fun _ => rfl⟩

/-- LoadPlacesTheImageFromAddressZero: the first address past a short image, the longest image, and one word more. -/
theorem test_witness_LoadPlacesTheImage : ([1, 2] : List Word).length ≤ (2 : Word).toNat ∧
    1 < ([1, 2] : List Word).length ∧ (List.replicate 65536 (1 : Word)).length ≤ 65536 ∧
    65536 < (List.replicate 65537 (1 : Word)).length := by
  refine ⟨by decide, by decide, ?_, ?_⟩
  · rw [List.length_replicate]
  · rw [List.length_replicate]; decide

/-- CostIsBaseSurchargeAndSkips: an instruction that is no conditional, V-COST-5, and W5's chain. -/
theorem test_witness_CostIsBaseSurchargeAndSkips : (Instr.hwi (.absInd 0x20)).isConditional = false ∧
    (readOperand (.regVal .a) (readOperand (.absLit 5) (loadAB [0x7C12, 0x0005] 5 0)).2).1 =
      (readOperand (.absLit 5) (loadAB [0x7C12, 0x0005] 5 0)).1 ∧
    (readOperand (.regVal .a) chainStart).1 ≠ 0 ∧ SkipRun .stopAtTop chainStart.mem (chainStart.pc.toNat + 1) 3 2 :=
  ⟨by decide, by decide, by decide, .more (by decide) (by decide) (.last (by decide) (by decide))⟩

end Sys2Proof.Tests
end

section
/-! The proofs about the decoder (30_encoding.md): what each operand field decodes to, and that a fetch decodes the three
words at the PC. -/

namespace Sys2Proof

/-! ## Operand fields (R74, R75, R76) -/

/-- A field value decodes to the descriptor that it is the field of. -/
theorem decodeOperand_of_field {op : Operand} {f : BitVec 6} (hf : operandField op = f) (h : op.wfA = true)
    (rd : Nat → Word) (n : Nat) (hx : ∀ v ∈ (operandExtra op).head?, rd n = v) :
    decodeOperand rd f n = (op, n + op.extraWords) :=
  hf ▸ decodeOperand_field h rd n hx

/-- The literals -1 to 30 are the inline ones, and stand in the fields 0x20 to 0x3f in order (R74). -/
theorem inlineLit_field (k : Fin 32) :
    operandField (.inlineLit (BitVec.ofInt 16 ((k : Int) - 1))) = BitVec.ofNat 6 (0x20 + k) ∧
      (Operand.inlineLit (BitVec.ofInt 16 ((k : Int) - 1))).wfA = true := by
  revert k; decide

theorem decodeOperand_inlineLit (rd : Nat → Word) (n : Nat) (k : Fin 32) :
    decodeOperand rd (BitVec.ofNat 6 (0x20 + k)) n = (.inlineLit (BitVec.ofInt 16 ((k : Int) - 1)), n) :=
  have ⟨hf, hw⟩ := inlineLit_field k
  decodeOperand_of_field hf hw rd n (by simp [operandExtra])

/-- A field below 0x18 selects the register that its number's low bits stand for: as a value below 8, as an address below
16, and with an extra word from there on (R76). -/
theorem decodeOperand_register (rd : Nat → Word) (n : Nat) (r : Reg) :
    decodeOperand rd (BitVec.ofNat 6 (regBits r).toNat) n = (.regVal r, n) ∧
      decodeOperand rd (BitVec.ofNat 6 (8 + (regBits r).toNat)) n = (.regInd r, n) ∧
      decodeOperand rd (BitVec.ofNat 6 (16 + (regBits r).toNat)) n = (.regOffInd r (rd n), n + 1) := by
  refine ⟨decodeOperand_of_field ?_ rfl rd n (by simp [operandExtra]),
    decodeOperand_of_field ?_ rfl rd n (by simp [operandExtra]),
    decodeOperand_of_field ?_ rfl rd n (by simp [operandExtra])⟩ <;> cases r <;> rfl

/-- The registers in the order of their field bits (R21). -/
theorem listed_number_eq_regBits : ∀ p ∈ [(0, Reg.a), (1, .b), (2, .c), (3, .x), (4, .y), (5, .z), (6, .i), (7, .j)],
    p.1 = (regBits p.2).toNat := by decide

/-! ## Fetching (R77, R79) -/

/-- Three words always hold an instruction (R78), so decoding them as a list answers it and leaves the words after it. -/
theorem decodeWordsUnder_three (num : Numbering) (rd : Nat → Word) :
    decodeWordsUnder num [rd 0, rd 1, rd 2] =
      .ok ((decodeUnder num rd).1, [rd 0, rd 1, rd 2].drop (decodeUnder num rd).2) := by
  have hrd : decodeUnder num (fun k => [rd 0, rd 1, rd 2].getD k 0) = decodeUnder num rd :=
    decode_congr num rfl rfl rfl
  have hle : (decodeUnder num rd).2 ≤ 3 := decode_count num rd ▸ Instr.length_le _
  simp only [decodeWordsUnder, hrd]
  exact if_pos hle

/-- A fetched instruction is one to three words long (R78). -/
theorem Machine.fetchUnder_count_le (num : Numbering) (s : Machine.State) : (Machine.fetchUnder num s).2 ≤ 3 :=
  decode_count num _ ▸ Instr.length_le _

/-- A fetch decodes the list of the three words at PC, PC + 1 and PC + 2, the sums in 16 bits (R79). -/
theorem Machine.decodeWordsUnder_at_pc (num : Numbering) (s : Machine.State) :
    decodeWordsUnder num [s.mem.read s.pc, s.mem.read (s.pc + 1), s.mem.read (s.pc + 2)] =
      .ok ((Machine.fetchUnder num s).1,
        [s.mem.read s.pc, s.mem.read (s.pc + 1), s.mem.read (s.pc + 2)].drop (Machine.fetchUnder num s).2) := by
  have h := decodeWordsUnder_three num fun k => s.mem.read (s.pc + BitVec.ofNat 16 k)
  have h0 : s.pc + BitVec.ofNat 16 0 = s.pc := BitVec.add_zero s.pc
  rw [h0] at h
  exact h

/-! ## The obligations -/

/-- Settles O4: the inline literals and the registers by the field of each descriptor, the special operands (R75) by the
decoder's own table. -/
theorem operandFieldsDecode : Obligations.OperandFieldsDecode := by
  intro rd n
  refine ⟨decodeOperand_inlineLit rd n, rfl, rfl, rfl, rfl, rfl, rfl, rfl, rfl, fun p hp => ?_⟩
  rw [listed_number_eq_regBits p hp]
  exact decodeOperand_register rd n p.2

/-- Settles O6: the words left after the fetched instruction are those of the three that it did not consume. -/
theorem fetchReadsTheWordsAtThePc : Obligations.FetchReadsTheWordsAtThePc := by
  intro s
  refine ⟨_, Machine.decodeWordsUnder_at_pc dcpu16Numbering s, ?_⟩
  rw [List.length_drop]
  exact Nat.sub_add_cancel (Machine.fetchUnder_count_le dcpu16Numbering s)

end Sys2Proof
end

section
/-! The proofs about dispatch (40_dispatch_and_operands.md): what a step answers and returns while a fault is latched. -/

namespace Sys2Proof

/-! ## The halted machine (R100) -/

/-- A machine with a latched fault fetches nothing and delivers nothing: the step answers the state itself. -/
theorem Machine.step_of_halted {s : Machine.State} (h : s.error.isSome = true) : Machine.step s = .next s :=
  if_pos h

/-- A step of a machine with a latched fault returns the halted signal, not a cost (R103). -/
theorem Machine.stepReturn_of_halted {s : Machine.State} (h : s.error.isSome = true) :
    Machine.stepReturn s = some .halted :=
  if_pos h

/-! ## The obligations -/

/-- Settles O8: the state and the return value of a halted step, each by its lemma. -/
theorem haltedStepChangesNothing : Obligations.HaltedStepChangesNothing := by
  intro s hs
  have halted : s.error.isSome = true := Option.isSome_iff_ne_none.mpr hs
  exact ⟨Machine.step_of_halted halted, Machine.stepReturn_of_halted halted⟩

end Sys2Proof
end

section
/-! The proofs about arithmetic (41_arith.md): what each instruction computes is first said of two words (`addResult_eq`
and its like), and an instruction then writes that for the values it read. -/

namespace Sys2Proof.Machine

/-! ## The two halves of an exact result (00_scope.md R10) -/

/-- `trunc16` takes the low half of the 32-bit two's-complement form. -/
theorem trunc16_eq_extractLsb' (n : Int) : trunc16 n = (BitVec.ofInt 32 n).extractLsb' 0 16 := by
  apply BitVec.eq_of_toNat_eq
  simp only [trunc16, BitVec.toNat_ofInt, BitVec.extractLsb'_toNat, Nat.shiftRight_zero]
  omega

/-- `hi16` takes the high half of the 32-bit two's-complement form. -/
theorem hi16_eq_extractLsb' (n : Int) : hi16 n = (BitVec.ofInt 32 n).extractLsb' 16 16 := by
  apply BitVec.eq_of_toNat_eq
  simp only [hi16, trunc16, BitVec.toNat_ofInt, BitVec.extractLsb'_toNat, Nat.shiftRight_eq_div_pow]
  omega

/-- Narrowing splits a number into the halves of the 32-bit word that it is. -/
theorem narrow_of_ofInt_eq {n : Int} {w : BitVec 32} (h : BitVec.ofInt 32 n = w) :
    narrow n = { res := w.extractLsb' 0 16, exv := w.extractLsb' 16 16 } := by
  rw [narrow, trunc16_eq_extractLsb', hi16_eq_extractLsb', h]

/-- The unsigned reading in 32 bits is the zero extension. -/
theorem ofInt_u16 (v : Word) : BitVec.ofInt 32 (u16 v) = v.setWidth 32 := by
  rw [u16, BitVec.ofInt_natCast, BitVec.ofNat_toNat]

/-- The signed reading in 32 bits is the sign extension. -/
theorem ofInt_s16 (v : Word) : BitVec.ofInt 32 (s16 v) = v.signExtend 32 := rfl

/-! ## Results in the terms of words -/

/-- R142: `hi16` of a sum of two words is its carry. -/
theorem addResult_eq (vb va : Word) :
    addResult vb va = { res := vb + va, exv := if 65536 ≤ vb.toNat + va.toNat then 1 else 0 } := by
  have hb := vb.isLt
  have ha := va.isLt
  have hex : hi16 (u16 vb + u16 va) = if 65536 ≤ vb.toNat + va.toNat then 1 else 0 := by
    unfold u16
    split
    · exact hi16_of_carry (by omega) (by omega)
    · exact hi16_of_small (by omega) (by omega)
  rw [addResult, narrow, hex, trunc16_add, trunc16_u16, trunc16_u16]

/-- R144: `hi16` of a difference of two words is its borrow. -/
theorem subResult_eq (vb va : Word) :
    subResult vb va = { res := vb - va, exv := if vb.toNat < va.toNat then 0xFFFF else 0 } := by
  have hb := vb.isLt
  have ha := va.isLt
  have hex : hi16 (u16 vb - u16 va) = if vb.toNat < va.toNat then 0xFFFF else 0 := by
    unfold u16
    split
    · exact hi16_of_borrow (by omega) (by omega)
    · exact hi16_of_small (by omega) (by omega)
  rw [subResult, narrow, hex, trunc16_sub, trunc16_u16, trunc16_u16]

/-- R146: the product of the unsigned readings is that of the zero extensions. -/
theorem mulResult_eq (vb va : Word) :
    mulResult vb va = { res := (vb.setWidth 32 * va.setWidth 32).extractLsb' 0 16
                        exv := (vb.setWidth 32 * va.setWidth 32).extractLsb' 16 16 } :=
  narrow_of_ofInt_eq (by rw [BitVec.ofInt_mul, ofInt_u16, ofInt_u16])

/-- R148: the product of the signed readings is that of the sign extensions. -/
theorem mliResult_eq (vb va : Word) :
    mliResult vb va = { res := (vb.signExtend 32 * va.signExtend 32).extractLsb' 0 16
                        exv := (vb.signExtend 32 * va.signExtend 32).extractLsb' 16 16 } :=
  narrow_of_ofInt_eq (by rw [BitVec.ofInt_mul, ofInt_s16, ofInt_s16])

/-- The quotient of the unsigned readings is that of the words. -/
theorem trunc16_u16_ediv (vb va : Word) : trunc16 (u16 vb / u16 va) = vb / va := by
  rw [u16, u16, ← Int.natCast_ediv, trunc16_natCast, ← BitVec.toNat_udiv, BitVec.ofNat_toNat, BitVec.setWidth_eq]

/-- The remainder of the unsigned readings is that of the words. -/
theorem trunc16_u16_emod (vb va : Word) : trunc16 (u16 vb % u16 va) = vb % va := by
  rw [u16, u16, ← Int.natCast_emod, trunc16_natCast, ← BitVec.toNat_umod, BitVec.ofNat_toNat, BitVec.setWidth_eq]

/-- R150, for a divisor other than zero. -/
theorem divResult_of_ne_zero (vb : Word) {va : Word} (h : va ≠ 0) :
    divResult vb va = { res := vb / va, exv := BitVec.ofNat 16 (vb.toNat * 65536 / va.toNat) } := by
  have hex : u16 vb * 65536 / u16 va = (vb.toNat * 65536 / va.toNat : Nat) := by
    unfold u16; norm_cast
  rw [divResult, if_neg h, trunc16_u16_ediv, hex, trunc16_natCast]

/-- R150, for the divisor zero. -/
theorem divResult_of_zero (vb : Word) {va : Word} (h : va = 0) : divResult vb va = { res := 0, exv := 0 } :=
  if_pos h

/-- R154: the remainder of words, and 0 for a zero divisor. -/
theorem modResult_eq (vb va : Word) : modResult vb va = if va = 0 then 0 else vb % va := by
  rw [modResult, trunc16_u16_emod]

/-! ## The values read, computed and written (R106, R107, R126) -/

/-- Where the operand values compute to `res` and `exv`, an instruction with a result and EX writes these two after both
reads. -/
theorem computeEx_of_result {P : Params} {f : Word → Word → Word → ResultEx} {b a : Operand} {s : State} {res exv : Word}
    (h : f (readBoth b a s).vb (readBoth b a s).va (readBoth b a s).after.ex = { res := res, exv := exv }) :
    computeEx P f b a s = writeResult P.exWriteOrder b res exv (readBoth b a s).after := by
  simp only [computeEx, h]

/-- Where the operand values compute to `v`, an instruction with a result alone writes `v` after both reads. -/
theorem compute_of_result {f : Word → Word → Word} {b a : Operand} {s : State} {v : Word}
    (h : f (readBoth b a s).vb (readBoth b a s).va = v) :
    compute f b a s = writeOperand b v (readBoth b a s).after := by
  rw [compute, h]

end Sys2Proof.Machine

namespace Sys2Proof
open Machine

/-! ## The obligations -/

/-- Settles O23: ADD writes its result, and `addResult_eq` is the sum and the carry. -/
theorem addResultAndCarry : Obligations.AddResultAndCarry := fun _ _ _ =>
  congrArg Host.Outcome.next (computeEx_of_result (addResult_eq _ _))

/-- Settles O24: SUB writes its result, and `subResult_eq` is the difference and the borrow. -/
theorem subResultAndBorrow : Obligations.SubResultAndBorrow := fun _ _ _ =>
  congrArg Host.Outcome.next (computeEx_of_result (subResult_eq _ _))

/-- Settles O25: a product is exact in 32 bits, so narrowing it splits that word into its halves. -/
theorem productsSplitIntoHalves : Obligations.ProductsSplitIntoHalves := fun _ _ _ =>
  ⟨congrArg Host.Outcome.next (computeEx_of_result (mulResult_eq _ _)),
    congrArg Host.Outcome.next (computeEx_of_result (mliResult_eq _ _))⟩

/-- Settles O26: by whether the divisor that was read is zero. -/
theorem divResultAndFraction : Obligations.DivResultAndFraction := by
  intro b a s ra rb
  refine congrArg Host.Outcome.next ?_
  split
  next hzero => exact computeEx_of_result (divResult_of_zero rb.1 hzero)
  next hne => exact computeEx_of_result (divResult_of_ne_zero rb.1 hne)

/-- Settles O28: MOD writes its result alone, and `modResult_eq` is the remainder of words. -/
theorem modResult : Obligations.ModResult := fun _ _ _ =>
  congrArg Host.Outcome.next (compute_of_result (modResult_eq _ _))

end Sys2Proof
end

section
/-! The proofs about logic (42_logic_shift.md): each bit of a result is that of the operand values' bits, and an instruction
writes the result alone. -/

namespace Sys2Proof.Machine

/-! ## Results bit by bit -/

/-- R180. -/
theorem getLsbD_andResult (vb va : Word) (k : Nat) :
    (andResult vb va).getLsbD k = (vb.getLsbD k && va.getLsbD k) :=
  BitVec.getLsbD_and

/-- R181. -/
theorem getLsbD_borResult (vb va : Word) (k : Nat) :
    (borResult vb va).getLsbD k = (vb.getLsbD k || va.getLsbD k) :=
  BitVec.getLsbD_or

/-- R182. -/
theorem getLsbD_xorResult (vb va : Word) (k : Nat) :
    (xorResult vb va).getLsbD k = (vb.getLsbD k ^^ va.getLsbD k) :=
  BitVec.getLsbD_xor

end Sys2Proof.Machine

namespace Sys2Proof
open Machine

/-! ## The obligation -/

/-- Settles O29: each of the three writes its result alone, and the lemma of that result says its bits. -/
theorem logicIsBitwise : Obligations.LogicIsBitwise := by
  intro b a s ra rb
  exact ⟨⟨andResult rb.1 ra.1, congrArg Host.Outcome.next (compute_of_result rfl), getLsbD_andResult _ _⟩,
    ⟨borResult rb.1 ra.1, congrArg Host.Outcome.next (compute_of_result rfl), getLsbD_borResult _ _⟩,
    ⟨xorResult rb.1 ra.1, congrArg Host.Outcome.next (compute_of_result rfl), getLsbD_xorResult _ _⟩⟩

end Sys2Proof
end

section
/-! The proof about the carry block (44_carry_block.md): the EX value of ADX counts the carries of a sum of three words, and
EX as carry in is the one that the operand reads left. -/

namespace Sys2Proof.Machine

/-- The EX of a number from 131072 up to 196607 is 2. -/
theorem hi16_of_two_carries {n : Int} (hl : 131072 ≤ n) (hu : n < 196608) : hi16 n = 2 := by
  have : n / 65536 = 2 := by omega
  rw [hi16, this]; rfl

/-- R240: `hi16` of a sum of three words is the number of its carries, at most 2. -/
theorem adxResult_eq (vb va c : Word) :
    adxResult vb va c =
      { res := vb + va + c
        exv := if 131072 ≤ vb.toNat + va.toNat + c.toNat then 2
          else if 65536 ≤ vb.toNat + va.toNat + c.toNat then 1 else 0 } := by
  have hb := vb.isLt
  have ha := va.isLt
  have hc := c.isLt
  have hex : hi16 (u16 vb + u16 va + u16 c) =
      if 131072 ≤ vb.toNat + va.toNat + c.toNat then 2
      else if 65536 ≤ vb.toNat + va.toNat + c.toNat then 1 else 0 := by
    unfold u16
    split_ifs
    · exact hi16_of_two_carries (by omega) (by omega)
    · exact hi16_of_carry (by omega) (by omega)
    · exact hi16_of_small (by omega) (by omega)
  rw [adxResult, narrow, hex, trunc16_add, trunc16_add, trunc16_u16, trunc16_u16, trunc16_u16]

/-- Reading the operands leaves EX as it was, even where an operand is EX. -/
@[simp] theorem readBoth_ex (b a : Operand) (s : State) : (readBoth b a s).after.ex = s.ex := by
  rw [readBoth_after]

end Sys2Proof.Machine

namespace Sys2Proof
open Machine

/-! ## The obligation -/

/-- Settles O31: ADX computes from the EX that the reads left, which is the EX before them, and `adxResult_eq` is the sum
and its carries. -/
theorem adxResultAndCarries : Obligations.AdxResultAndCarries := by
  intro b a s ra rb sum
  have hresult : adxResult rb.1 ra.1 (readBoth b a s).after.ex =
      { res := rb.1 + ra.1 + s.ex, exv := if 131072 ≤ sum then 2 else if 65536 ≤ sum then 1 else 0 } := by
    rw [readBoth_ex, adxResult_eq]
  exact congrArg Host.Outcome.next (computeEx_of_result hresult)

end Sys2Proof
end

section
/-! The proofs about the interrupt controller (60_exceptions.md): what a delivery attempt answers under each condition, and
where the handler's frame stands in memory. -/

namespace Sys2Proof.Machine

/-! ## A delivery attempt by its conditions (R328 to R331) -/

/-- R328. -/
theorem attemptDelivery_of_deferred {s : State} (h : s.queueInterrupts = true) : attemptDelivery s = s := by
  simp [attemptDelivery, h]

/-- R329. -/
theorem attemptDelivery_of_empty {s : State} (h : s.queue = []) : attemptDelivery s = s := by
  simp [attemptDelivery, h]

/-- R330. -/
theorem attemptDelivery_of_ia_zero {s : State} {m : Word} {q : List Word} (hd : s.queueInterrupts = false)
    (hq : s.queue = m :: q) (hia : s.ia = 0) : attemptDelivery s = { s with queue := q } := by
  simp [attemptDelivery, hd, hq, hia]

/-- R331. -/
theorem attemptDelivery_of_ia_ne_zero {s : State} {m : Word} {q : List Word} (hd : s.queueInterrupts = false)
    (hq : s.queue = m :: q) (hia : s.ia ≠ 0) : attemptDelivery s = enterHandler m { s with queue := q } := by
  rw [attemptDelivery, if_neg (Bool.eq_false_iff.mp hd), hq]
  exact if_neg hia

/-! ## The handler's registers and frame (R331) -/

/-- Two pushes leave SP two words down, also where it wraps. -/
theorem sub_one_sub_one (x : Word) : x - 1 - 1 = x - 2 := by bv_omega

/-- The two words of the frame are two places, also where SP wraps. -/
theorem sub_one_ne_sub_two (x : Word) : x - 1 ≠ x - 2 := by bv_omega

/-- The frame is the PC with A below it, and no other word of memory changes. -/
theorem enterHandler_read (m : Word) (s : State) (x : Word) :
    (enterHandler m s).mem.read x =
      if x = s.sp - 2 then s.reg .a else if x = s.sp - 1 then s.pc else s.mem.read x := by
  rw [enterHandler_mem, sub_one_sub_one, Memory.read_write, Memory.read_write]
  rfl

@[simp] theorem enterHandler_reg_a (m : Word) (s : State) : (enterHandler m s).reg .a = m := rfl

theorem enterHandler_reg_other (m : Word) (s : State) {r : Reg} (h : r ≠ .a) :
    (enterHandler m s).reg r = s.reg r := s.regs.get_set_other m h

end Sys2Proof.Machine

namespace Sys2Proof
open Machine

/-! ## The obligations -/

/-- Settles O49: by whether the queue is full. -/
theorem enqueueStoresOrSetsOnFire : Obligations.EnqueueStoresOrSetsOnFire := by
  intro m s
  split
  next hfull => exact enqueue_full hfull
  next hroom => exact enqueue_room (Nat.lt_of_not_le hroom)

/-- Settles O51: each of the three conditions by its lemma. -/
theorem deliveryWaitsOrDrops : Obligations.DeliveryWaitsOrDrops := fun _ _ _ =>
  ⟨attemptDelivery_of_deferred rfl, attemptDelivery_of_empty rfl, attemptDelivery_of_ia_zero rfl rfl rfl⟩

/-- Settles O52: the attempt enters the handler, whose frame `enterHandler_read` places in memory. -/
theorem deliveryEntersTheHandler : Obligations.DeliveryEntersTheHandler := by
  intro s m q hd hq hia t
  have ht : t = enterHandler m { s with queue := q } := attemptDelivery_of_ia_ne_zero hd hq hia
  have hsp : t.sp = s.sp - 2 := ht ▸ sub_one_sub_one s.sp
  have hmem (x : Word) : t.mem.read x =
      if x = s.sp - 2 then s.reg .a else if x = s.sp - 1 then s.pc else s.mem.read x :=
    ht ▸ enterHandler_read m _ x
  have hpcWord : t.mem.read (s.sp - 1) = s.pc := by
    rw [hmem, if_neg (sub_one_ne_sub_two s.sp), if_pos rfl]
  have haWord : t.mem.read t.sp = s.reg .a := by rw [hsp, hmem, if_pos rfl]
  have hother (x : Word) (h1 : x ≠ s.sp - 1) (h2 : x ≠ s.sp - 2) : t.mem.read x = s.mem.read x := by
    rw [hmem, if_neg h2, if_neg h1]
  have hreg (r : Reg) (hr : r ≠ .a) : t.reg r = s.reg r := ht ▸ enterHandler_reg_other m _ hr
  exact ⟨by simp [ht], by simp [ht], hsp, hpcWord, haWord, by simp [ht], by simp [ht], hother, hreg,
    attemptDelivery_ex s, attemptDelivery_ia s, attemptDelivery_onFire s, attemptDelivery_halted s,
    attemptDelivery_error s⟩

/-- Settles O53: the step ends with a delivery attempt from the state its instruction left, and O52 says what that does. -/
theorem stepDeliversTheFrontMessage : Obligations.StepDeliversTheFrontMessage := by
  intro s u m q hs hexec hu hd hq hia
  have hstep : step s = .next (attemptDelivery u) := by simpa [hu] using step_of_exec hs hexec
  obtain ⟨hpc, ha, hsp, hpcWord, haWord, hdeferred, hqueue, -⟩ := deliveryEntersTheHandler u m q hd hq hia
  exact ⟨attemptDelivery u, hstep, hpc, ha, hsp, hpcWord, hsp ▸ haWord, hdeferred, hqueue⟩

end Sys2Proof
end

section
/-! The round trip of decoder and encoder (30_encoding.md): the words of a well-formed instruction decode to it, the words
that the decoder consumes are those of its answer, and the first word tells how many they are. -/

namespace Sys2Proof

/-! ## An instruction by its form -/

/-- The instruction of a form. -/
def Form.instr : Form → Instr
  | .basic op b a => op.instr b a
  | .special op a => op.instr a
  | .invalidBasic o b a => .invalidBasicOpcode o b a
  | .invalidSpecial code a => .invalidSpecialOpcode code a

@[simp] theorem Instr.form_instr (i : Instr) : i.form.instr = i := by cases i <;> rfl

/-- R85: an unassigned basic opcode is not the special format's marker, and names no mnemonic. -/
theorem unassignedBasic_iff {num : Numbering} {o : BitVec 5} :
    unassignedBasic num o = true ↔ o ≠ 0 ∧ num.basic o = none := by
  simp [unassignedBasic]

/-- R86. -/
theorem unassignedSpecial_iff {num : Numbering} {c : BitVec 5} :
    unassignedSpecial num c = true ↔ num.special c = none := by
  simp [unassignedSpecial]

theorem wfBasic_iff {b a : Operand} : wfBasic b a = true ↔ b.wfB = true ∧ a.wfA = true := by
  simp [wfBasic]

/-- A nonzero opcode with operands that fit their fields selects a well-formed instruction, assigned or not (R83, R85). -/
theorem basicInstr_wf (num : Numbering) {o : BitVec 5} (ho : o ≠ 0) {b a : Operand} (hb : b.wfB = true)
    (ha : a.wfA = true) : (basicInstr num o b a).wfUnder num = true := by
  have hwf : wfBasic b a = true := wfBasic_iff.mpr ⟨hb, ha⟩
  rw [Instr.wfUnder, basicInstr_form]
  cases hn : num.basic o with
  | none => simp [unassignedBasic_iff.mpr ⟨ho, hn⟩, hwf]
  | some op => exact hwf

/-- The same for the special format (R84, R86). -/
theorem specialInstr_wf (num : Numbering) (c : BitVec 5) {a : Operand} (ha : a.wfA = true) :
    (specialInstr num c a).wfUnder num = true := by
  rw [Instr.wfUnder, specialInstr_form]
  cases hn : num.special c with
  | none => simp [unassignedSpecial_iff.mpr hn, ha]
  | some op => exact ha

/-- What the decoder sees of a well-formed instruction: a nonzero opcode and two operands that fit their fields, or a
special opcode and one operand (R71, R80); the numbering leads back from it to the instruction. -/
theorem Instr.view_cases {num : Numbering} (h : num.Good) {i : Instr} (hw : i.wfUnder num = true) :
    (∃ o b a, i.viewUnder num = basicView o b a ∧ o ≠ 0 ∧ b.wfB = true ∧ a.wfA = true ∧ basicInstr num o b a = i) ∨
      ∃ c a, i.viewUnder num = specialView c a ∧ a.wfA = true ∧ specialInstr num c a = i := by
  obtain ⟨hbasic, hspecial, -, -⟩ := h
  have hi := i.form_instr
  rw [Instr.wfUnder] at hw
  rw [Instr.viewUnder]
  cases hf : i.form with
  | basic op b a =>
    rw [hf] at hw hi
    obtain ⟨hb, ha⟩ := wfBasic_iff.mp hw
    obtain ⟨hcode, hop⟩ := hbasic op
    exact .inl ⟨_, b, a, rfl, hcode, hb, ha, by rw [basicInstr, hop]; exact hi⟩
  | special op a =>
    rw [hf] at hw hi
    exact .inr ⟨_, a, rfl, hw, by rw [specialInstr, hspecial op]; exact hi⟩
  | invalidBasic o b a =>
    rw [hf] at hw hi
    obtain ⟨ho, hwf⟩ := Bool.and_eq_true_iff.mp hw
    obtain ⟨hcode, hnone⟩ := unassignedBasic_iff.mp ho
    obtain ⟨hb, ha⟩ := wfBasic_iff.mp hwf
    exact .inl ⟨o, b, a, rfl, hcode, hb, ha, by rw [basicInstr, hnone]; exact hi⟩
  | invalidSpecial c a =>
    rw [hf] at hw hi
    obtain ⟨hc, ha⟩ := Bool.and_eq_true_iff.mp hw
    exact .inr ⟨c, a, rfl, ha, by rw [specialInstr, unassignedSpecial_iff.mp hc]; exact hi⟩

/-! ## The words of a view (R70, R71) -/

theorem encodeUnder_of_basicView {num : Numbering} {i : Instr} {o : BitVec 5} {b a : Operand}
    (h : i.viewUnder num = basicView o b a) :
    encodeUnder num i =
      (operandField a ++ (operandField b).setWidth 5 ++ o : BitVec 16) :: (operandExtra a ++ operandExtra b) := by
  rw [encodeUnder, h]; rfl

theorem encodeUnder_of_specialView {num : Numbering} {i : Instr} {c : BitVec 5} {a : Operand}
    (h : i.viewUnder num = specialView c a) :
    encodeUnder num i = (operandField a ++ c ++ (0 : BitVec 5) : BitVec 16) :: operandExtra a := by
  rw [encodeUnder, h]; rfl

/-- An operand's extra word stands after the first word and the extra words before it (R77). -/
theorem getElem?_extraWord (w : Word) (before after : List Word) {xs : List Word} {v : Word} (h : v ∈ xs.head?) :
    (w :: (before ++ (xs ++ after)))[1 + before.length]? = some v := by
  obtain ⟨tail, rfl⟩ := List.head?_eq_some_iff.mp h
  simp [Nat.add_comm 1]

/-! ## From the words to the instruction -/

/-- Where the words of a basic view stand, the decoder sees that view. -/
theorem decodeFields_of_basic {o : BitVec 5} (ho : o ≠ 0) {b a : Operand} (hb : b.wfB = true) (ha : a.wfA = true)
    {rd : Nat → Word} (h0 : rd 0 = (operandField a ++ (operandField b).setWidth 5 ++ o : BitVec 16))
    (hxa : ∀ v ∈ (operandExtra a).head?, rd 1 = v) (hxb : ∀ v ∈ (operandExtra b).head?, rd (1 + a.extraWords) = v) :
    (decodeFields rd).1 = basicView o b a := by
  obtain ⟨hfa, hfb, hfo⟩ := fields_of_word (operandField a) ((operandField b).setWidth 5) o
  simp only [decodeFields, h0, hfa, hfb, hfo, if_neg ho, decodeOperand_field ha rd 1 hxa, operandField_narrow hb,
    decodeOperand_field (Operand.wfA_of_wfB hb) rd _ hxb]

/-- The same for a special view. -/
theorem decodeFields_of_special {c : BitVec 5} {a : Operand} (ha : a.wfA = true) {rd : Nat → Word}
    (h0 : rd 0 = (operandField a ++ c ++ (0 : BitVec 5) : BitVec 16))
    (hxa : ∀ v ∈ (operandExtra a).head?, rd 1 = v) : (decodeFields rd).1 = specialView c a := by
  obtain ⟨hfa, hfc, hfo⟩ := fields_of_word (operandField a) c 0
  simp only [decodeFields, h0, hfa, hfc, hfo, if_true, decodeOperand_field ha rd 1 hxa]

/-- Wherever the words of a well-formed instruction stand, the decoder answers that instruction. -/
theorem decodeUnder_of_encoded {num : Numbering} (h : num.Good) {i : Instr} (hw : i.wfUnder num = true)
    {rd : Nat → Word} (hrd : ∀ k v, (encodeUnder num i)[k]? = some v → rd k = v) :
    decodeUnder num rd = (i, i.length) := by
  have hinstr : (decodeUnder num rd).1 = i := by
    rcases Instr.view_cases h hw with ⟨o, b, a, hview, ho, hb, ha, hi⟩ | ⟨c, a, hview, ha, hi⟩
    · rw [encodeUnder_of_basicView hview] at hrd
      have hx : (decodeFields rd).1 = basicView o b a := by
        refine decodeFields_of_basic ho hb ha (hrd 0 _ rfl) (fun v hv => hrd 1 v ?_) fun v hv => hrd _ v ?_
        · exact getElem?_extraWord _ [] _ hv
        · rw [← Laws.WordCount.operandExtra_length]
          simpa using getElem?_extraWord _ (operandExtra a) [] hv
      simp only [decodeUnder, hx]
      exact hi
    · rw [encodeUnder_of_specialView hview] at hrd
      have hx : (decodeFields rd).1 = specialView c a := by
        refine decodeFields_of_special ha (hrd 0 _ rfl) fun v hv => hrd 1 v ?_
        simpa using getElem?_extraWord (operandField a ++ c ++ (0 : BitVec 5)) [] [] hv
      simp only [decodeUnder, hx]
      exact hi
  exact Prod.ext hinstr ((decode_count num rd).trans (congrArg Instr.length hinstr))

/-! ## From the instruction to the words -/

/-- R85, R86, R80: whatever words are read, the answer is well-formed. -/
theorem decodeUnder_wf (num : Numbering) (rd : Nat → Word) : (decodeUnder num rd).1.wfUnder num = true := by
  have ha := (decodeOperand_sound rd (aField (rd 0)) 1).1
  simp only [decodeUnder, decodeFields]
  split
  next => exact specialInstr_wf num _ ha
  next ho => exact basicInstr_wf num ho (decodeOperand_wfB rd _ _) ha

/-- The words of the decoder's answer are the words it consumed. -/
theorem encodeUnder_decodeUnder {num : Numbering} (h : num.Good) (rd : Nat → Word) :
    encodeUnder num (decodeUnder num rd).1 = (List.range (decodeUnder num rd).2).map rd := by
  have hview := decodeUnder_view h rd
  have hcount : (decodeUnder num rd).2 = 1 + (decodeFields rd).1.extraWords := decodeFields_count rd
  obtain ⟨-, hfa, hxa⟩ := decodeOperand_sound rd (aField (rd 0)) 1
  rw [hcount]
  simp only [decodeFields] at hview ⊢
  split at hview
  next hzero =>
    rw [if_pos hzero, encodeUnder_of_specialView hview, hfa, hxa, ← hzero, word_of_fields]
    simp [specialView, Decoded.extraWords, List.range_add, Function.comp_def]
  next hne =>
    obtain ⟨-, hfb, hxb⟩ := decodeOperand_sound rd ((bField (rd 0)).setWidth 6) (decodeOperand rd (aField (rd 0)) 1).2
    have hnarrow : ((bField (rd 0)).setWidth 6).setWidth 5 = bField (rd 0) :=
      BitVec.setWidth_setWidth_of_le _ (by omega)
    rw [if_neg hne, encodeUnder_of_basicView hview, hfa, hfb, hxa, hxb, hnarrow, word_of_fields, decodeOperand_count]
    simp [basicView, Decoded.extraWords, List.range_add, Function.comp_def, Nat.add_assoc]

/-! ## The length (R78) -/

/-- `x(f)` of R78: whether the operand with this field takes an extra word. -/
def fieldExtraWords (f : BitVec 6) : Nat :=
  if (0x10 ≤ f.toNat ∧ f.toNat ≤ 0x17) ∨ f = 0x1a ∨ f = 0x1e ∨ f = 0x1f then 1 else 0

/-- The form of an operand, and so its number of extra words, depends on its field alone. -/
theorem decodeOperand_extraWords (rd : Nat → Word) (f : BitVec 6) (n : Nat) :
    (decodeOperand rd f n).1.extraWords = fieldExtraWords f := by
  have hfield : ∀ f, (decodeOperand (fun _ => 0) f 0).1.extraWords = fieldExtraWords f := by decide
  rw [← hfield]
  unfold decodeOperand
  split
  next => rfl
  next =>
    split
    iterate 8 next => rfl
    next => split <;> rfl

/-! ## Words placed for the next fetch -/

/-- The three words of the opcode table stand at the PC, PC + 1 and PC + 2 after `withFetchWord`. -/
theorem Machine.tableWords_withFetchWord (s : Machine.State) (nbits w : Nat) :
    let t := s.withFetchWord nbits w
    tableWords nbits w = [t.mem.read t.pc, t.mem.read (t.pc + 1), t.mem.read (t.pc + 2)] := by
  simp [Machine.State.withFetchWord, tableWords, Machine.Memory.read_write]

/-! ## The obligations -/

/-- Settles O1: the list holds the instruction's words at its head, so the decoder answers the instruction, and its length
is that of its words. -/
theorem decodeOfEncodedWords : Obligations.DecodeOfEncodedWords := by
  intro i rest hw
  have hdecode : decode (fun k => (encode i ++ rest).getD k 0) = (i, i.length) :=
    decodeUnder_of_encoded dcpu16_good hw fun k v hk => by
      simp [List.getD, List.getElem?_append_left (List.getElem?_eq_some_iff.mp hk).1, hk]
  have hlen : (encode i).length = i.length := Laws.WordCount.of_form i
  simp only [decodeWords, decodeWordsUnder, hdecode, List.length_append, hlen]
  rw [if_pos (Nat.le_add_right _ _), ← hlen, List.drop_left]

/-- Settles O2: at the default numbering, in which every mnemonic has one number. -/
theorem encodeOfDecodedWords : Obligations.EncodeOfDecodedWords := fun rd =>
  ⟨decodeUnder_wf dcpu16Numbering rd, encodeUnder_decodeUnder dcpu16_good rd⟩

/-- Settles O5: each operand consumes what `fieldExtraWords` says of its field, in either format. -/
theorem lengthFromFirstWord : Obligations.LengthFromFirstWord := by
  intro rd x
  have hx : x = fieldExtraWords := rfl
  simp only [hx, decode, decodeUnder, decodeFields]
  split
  next => rw [decodeOperand_count, decodeOperand_extraWords]; rfl
  next => rw [decodeOperand_count, decodeOperand_count, decodeOperand_extraWords, decodeOperand_extraWords]

/-- Settles O3, by running the decoder on each of the ten words. -/
theorem sampleWordsDecode : Obligations.SampleWordsDecode := by
  unfold Obligations.SampleWordsDecode
  decide

/-- Settles O59: the table's words are the three at the PC, which a fetch decodes as a list of words. -/
theorem withFetchWordIsFetched : Obligations.WithFetchWordIsFetched := by
  intro s nbits w
  refine ⟨?_, rfl⟩
  rw [decodeTableWord, Machine.tableWords_withFetchWord s, decodeWords, Machine.decodeWordsUnder_at_pc]

end Sys2Proof
end

section
/-! The proofs about the step (40_dispatch_and_operands.md, 10_state.md section 3): what each effect of an instruction does
to the control state, to EX and to the invariant is said once, and a step is an effect followed by at most one delivery
attempt. -/

namespace Sys2Proof.Machine

/-! ## What an enqueue leaves (R322) -/

@[simp] theorem enqueue_regs (m : Word) (s : State) : (enqueue m s).1.regs = s.regs := by
  rcases enqueue_cases m s with ⟨-, h⟩ | ⟨-, h⟩ <;> rw [h]
@[simp] theorem enqueue_sp (m : Word) (s : State) : (enqueue m s).1.sp = s.sp := by
  rcases enqueue_cases m s with ⟨-, h⟩ | ⟨-, h⟩ <;> rw [h]
@[simp] theorem enqueue_ex (m : Word) (s : State) : (enqueue m s).1.ex = s.ex := by
  rcases enqueue_cases m s with ⟨-, h⟩ | ⟨-, h⟩ <;> rw [h]
@[simp] theorem enqueue_ia (m : Word) (s : State) : (enqueue m s).1.ia = s.ia := by
  rcases enqueue_cases m s with ⟨-, h⟩ | ⟨-, h⟩ <;> rw [h]
@[simp] theorem enqueue_mem (m : Word) (s : State) : (enqueue m s).1.mem = s.mem := by
  rcases enqueue_cases m s with ⟨-, h⟩ | ⟨-, h⟩ <;> rw [h]
@[simp] theorem enqueue_halted (m : Word) (s : State) : (enqueue m s).1.halted = s.halted := by
  rcases enqueue_cases m s with ⟨-, h⟩ | ⟨-, h⟩ <;> rw [h]
@[simp] theorem enqueue_queueInterrupts (m : Word) (s : State) : (enqueue m s).1.queueInterrupts = s.queueInterrupts := by
  rcases enqueue_cases m s with ⟨-, h⟩ | ⟨-, h⟩ <;> rw [h]
@[simp] theorem enqueue_error (m : Word) (s : State) : (enqueue m s).1.error = s.error := by
  rcases enqueue_cases m s with ⟨-, h⟩ | ⟨-, h⟩ <;> rw [h]

/-! ## What an effect does to the flags, IA, EX, the queue and the error latch -/

section
variable {P : Params} {i : Instr} {s u : State}

/-- R29, R322: only INT on a full queue sets ON_FIRE, and nothing clears it. -/
theorem Effect.onFire (h : Effect P i s u) :
    u.onFire = s.onFire ∨
      (u.onFire = true ∧ P.specialMode = .wired ∧ queueCapacity ≤ s.queue.length ∧ ∃ a, i = .int a) := by
  cases h with
  | enqueues a m p q hi hmode =>
    rcases enqueue_cases m { s with pc := p, sp := q } with ⟨hfull, he⟩ | ⟨-, he⟩
    · exact .inr ⟨by rw [he], hmode, hfull, a, hi⟩
    · exact .inl (by rw [he])
  | _ => exact .inl (by simp)

/-- R26, R266: only IAS writes IA. -/
theorem Effect.ia (h : Effect P i s u) : u.ia = s.ia ∨ (P.specialMode = .wired ∧ ∃ a, i = .ias a) := by
  cases h with
  | setsIa a v p q hi hmode => exact .inr ⟨hmode, a, hi⟩
  | _ => exact .inl (by simp)

/-- A write whose operand is not EX leaves EX (R118). -/
theorem writeOperand_ex_or (op : Operand) (v : Word) (s : State) :
    (writeOperand op v s).ex = s.ex ∨ op = .exReg := by
  by_cases h : op = .exReg
  · exact .inr h
  · exact .inl (by rw [writeOperand_ex, if_neg h])

/-- R25: EX is written by the instructions that set it, and as a destination. -/
theorem Effect.ex (h : Effect P i s u) : u.ex = s.ex ∨ i.setsEx = true ∨ i.destination = some .exReg := by
  cases h with
  | writes op v e p q hdest hex =>
    rcases hex with hsets | rfl
    · exact .inr (.inl hsets)
    · rcases writeOperand_ex_or op v { s with pc := p, sp := q } with hkeep | rfl
      · exact .inl hkeep
      · exact .inr (.inr hdest)
  | copies op v d p q hdest =>
    rcases writeOperand_ex_or op v { s with pc := p, sp := q } with hkeep | rfl
    · exact .inl hkeep
    · exact .inr (.inr hdest)
  | _ => exact .inl (by simp)

/-- R30, R268, R270: only RFI and IAQ write QUEUE_INTERRUPTS. -/
theorem Effect.queueInterrupts (h : Effect P i s u) :
    u.queueInterrupts = s.queueInterrupts ∨ (P.specialMode = .wired ∧ ∃ a, i = .rfi a ∨ i = .iaq a) := by
  cases h with
  | returns a p hi hmode => exact .inr ⟨hmode, a, .inl hi⟩
  | switches a x p q hi hmode => exact .inr ⟨hmode, a, .inr hi⟩
  | _ => exact .inl (by simp)

/-- R322: only INT adds a message, at the back of a queue with room. -/
theorem Effect.queue (h : Effect P i s u) :
    u.queue = s.queue ∨ (∃ m, u.queue = s.queue ++ [m]) ∧
      P.specialMode = .wired ∧ s.queue.length < queueCapacity ∧ ∃ a, i = .int a := by
  cases h with
  | enqueues a m p q hi hmode =>
    rcases enqueue_cases m { s with pc := p, sp := q } with ⟨-, he⟩ | ⟨hroom, he⟩
    · exact .inl (by rw [he])
    · exact .inr ⟨⟨m, by rw [he]⟩, hmode, hroom, a, hi⟩
  | _ => exact .inl (by simp)

/-- R310 to R314: an instruction leaves HALTED and the error latch, or latches a fault. -/
theorem Effect.halt (h : Effect P i s u) :
    (u.error = s.error ∧ u.halted = s.halted) ∨
      ∃ kind data q, kind ≠ .invalidArgumentType ∧ (q = s.sp ∨ q = s.sp + 1 ∨ q = s.sp + 2) ∧
        u = latch P.faultPc kind data s.pc { s with pc := s.pc + BitVec.ofNat 16 i.length, sp := q } := by
  cases h with
  | faults kind data q _ hkind hq => exact .inr ⟨kind, data, q, hkind, hq, rfl⟩
  | _ => exact .inl (by simp)

/-- Every effect keeps the canonical form of memory (log entry 1). -/
theorem Effect.mem_wf (h : Effect P i s u) (hm : s.mem.wf) : u.mem.wf := by
  cases h with
  | writes op v e p q => exact writeOperand_mem_wf (s := { s with pc := p, sp := q }) hm
  | copies op v d p q => exact writeOperand_mem_wf (s := { s with pc := p, sp := q }) hm
  | calls a p q x v => exact Memory.write_wf hm x v
  | enqueues a m p q => rw [enqueue_mem]; exact hm
  | _ => exact hm

/-- Every effect keeps the invariant. -/
theorem Effect.inv (h : Effect P i s u) (hs : s.Inv) : u.Inv := by
  obtain ⟨hm, hq, hhalted, hkind⟩ := hs
  have hqueue : u.queue.length ≤ queueCapacity := by
    rcases h.queue with he | ⟨⟨m, he⟩, -, hroom, -⟩
    · rw [he]; exact hq
    · rw [he, List.length_append]; exact hroom
  refine ⟨h.mem_wf hm, hqueue, ?_⟩
  rcases h.halt with ⟨he, hh⟩ | ⟨kind, data, q, hk, -, rfl⟩
  · rw [he, hh]; exact ⟨hhalted, hkind⟩
  · exact ⟨rfl, by simpa using hk⟩

end

/-! ## The end of a step -/

theorem attemptDelivery_mem_wf {s : State} (h : s.mem.wf) : (attemptDelivery s).mem.wf := by
  rcases attemptDelivery_cases s with he | ⟨-, m, q, -, ⟨-, he⟩ | ⟨-, he⟩⟩ <;> rw [he]
  · exact h
  · exact h
  · exact Memory.write_wf (Memory.write_wf h _ _) _ _

theorem attemptDelivery_inv {s : State} (h : s.Inv) : (attemptDelivery s).Inv := by
  obtain ⟨hm, hq, hhalted, hkind⟩ := h
  refine ⟨attemptDelivery_mem_wf hm, ?_, ?_, ?_⟩
  · rcases attemptDelivery_queue s with he | he
    · rw [he]; exact hq
    · rw [he, List.length_tail]; omega
  · rw [attemptDelivery_halted, attemptDelivery_error]; exact hhalted
  · rw [attemptDelivery_error]; exact hkind

theorem endOfStep_inv {s : State} (h : s.Inv) : (endOfStep s).Inv := by
  unfold endOfStep
  split
  · exact h
  · exact attemptDelivery_inv h

/-! ## A step -/

/-- Every step answers a next state (R104, R223). What holds of a halted state, and of the fetched instruction's effect with
and without a delivery attempt after it, holds of that state. -/
theorem exists_step {C : State → Prop} {s : State} (hs : C s)
    (hf : ∀ u, Effect params (fetch s).1 s u → C u ∧ C (attemptDelivery u)) : ∃ t, step s = .next t ∧ C t := by
  cases he : s.error with
  | some e => exact ⟨s, step_of_halted (by simp [he]), hs⟩
  | none =>
    obtain ⟨u, hu, heffect⟩ := exec_next (fetch s).1 s
    obtain ⟨hc, hd⟩ := hf u heffect
    refine ⟨_, step_of_exec he hu, ?_⟩
    split
    · exact hc
    · exact hd

/-- A step of a machine that is not halted returns the instruction's cost, or the halted signal where it faulted (R103). -/
theorem stepReturn_of_exec {s u : State} (he : s.error = none) (hu : exec (fetch s).1 s = .next u) :
    stepReturn s = some (if u.error.isSome then .halted else .cycles (cost (fetch s).1 s)) := by
  simp only [stepReturn, he, hu, Option.isSome_none, Bool.false_eq_true, if_false]
  split <;> rfl

/-- A step without an outcome returns nothing. -/
theorem stepReturnUnder_of_fault {P : Params} {s : State} {r : Fault} (h : stepUnder P s = .fault r) :
    stepReturnUnder P s = none := by
  unfold stepUnder at h
  unfold stepReturnUnder
  split at h
  next => cases h
  next hs =>
    rw [if_neg hs]
    cases he : execUnder P (fetchUnder P.opcodeNumbering s).1 s with
    | next t => rw [he] at h; cases h
    | fault r => rfl
    | refused r => rfl

/-- The words of a well-formed instruction at the PC are that instruction to the fetch (R101). -/
theorem fetch_of_encoded {i : Instr} {s : State} (hw : i.wf = true)
    (h : ∀ (k : Nat) (hk : k < (encode i).length), s.mem.read (s.pc + BitVec.ofNat 16 k) = (encode i)[k]) :
    fetch s = (i, i.length) :=
  decodeUnder_of_encoded dcpu16_good hw fun k _ hv => by
    obtain ⟨hk, rfl⟩ := List.getElem?_eq_some_iff.mp hv
    exact h k hk

/-- A fetch answers the length of the instruction that it answers (R78). -/
theorem fetch_count (s : State) : (fetch s).2 = (fetch s).1.length := decode_count _ _

end Sys2Proof.Machine

namespace Sys2Proof
open Machine

/-! ## The obligations -/

/-- Settles O60: by what a step can do under any parameters; an effect and the end of the step both keep the invariant. -/
theorem everyParameterKeepsInvariant : Obligations.EveryParameterKeepsInvariant := by
  refine ⟨fun P s hs => ?_, fun s => ⟨step_eq s, stepReturn_eq s⟩⟩
  rcases stepUnder_cases P s with ⟨-, h⟩ | ⟨-, u, heffect, h⟩ | ⟨-, hp, hc, h⟩
  · exact .inl ⟨s, h, hs⟩
  · exact .inl ⟨endOfStep u, h, endOfStep_inv (heffect.inv hs)⟩
  · exact .inr ⟨hp, hc, h, stepReturnUnder_of_fault h⟩

/-- Settles O12: the case of this machine's parameters, which never wrap. -/
theorem stepKeepsInvariant : Obligations.StepKeepsInvariant := by
  intro s t hs ht
  rw [step_eq] at ht
  rcases everyParameterKeepsInvariant.1 params s hs with ⟨t', ht', hinv⟩ | ⟨hwrap, -⟩
  · rw [ht] at ht'
    exact Host.Outcome.next.inj ht' ▸ hinv
  · cases hwrap

/-- Settles O13: a delivery attempt leaves ON_FIRE. -/
theorem onFireIsNeverCleared : Obligations.OnFireIsNeverCleared := fun _ =>
  exists_step (.inl rfl) fun u h => ⟨h.onFire, by rw [attemptDelivery_onFire]; exact h.onFire⟩

/-- Settles O14: a delivery attempt leaves IA. -/
theorem iaWrittenOnlyByIas : Obligations.IaWrittenOnlyByIas := fun _ =>
  exists_step (.inl rfl) fun u h => ⟨h.ia, by rw [attemptDelivery_ia]; exact h.ia⟩

/-- Settles O15: a delivery attempt leaves EX. -/
theorem exWrittenOnlyWhereNamed : Obligations.ExWrittenOnlyWhereNamed := fun _ =>
  exists_step (.inl rfl) fun u h => ⟨h.ex, by rw [attemptDelivery_ex]; exact h.ex⟩

/-- Settles O16: while delivery is deferred, the attempt at the end of the step changes nothing. -/
theorem deferralEndsOnlyByRfiOrIaq : Obligations.DeferralEndsOnlyByRfiOrIaq := by
  refine fun s => exists_step .inl fun u h => ?_
  rcases h.queueInterrupts with hkeep | hends
  · refine ⟨fun hs => .inl (hkeep.trans hs), fun hs => .inl ?_⟩
    rw [attemptDelivery_of_deferred (hkeep.trans hs)]
    exact hkeep.trans hs
  · exact ⟨fun _ => .inr hends, fun _ => .inr hends⟩

/-- Settles O17: the effect adds at most one message, then the attempt takes at most the front one. -/
theorem queueMovesByAtMostOneMessage : Obligations.QueueMovesByAtMostOneMessage := by
  refine fun s => exists_step ⟨[], by simp⟩ fun u h => ?_
  obtain ⟨added, hu, hadded⟩ : ∃ added, u.queue = s.queue ++ added ∧ (added = [] ∨
      (Config.specialMode = .wired ∧ added.length = 1 ∧ s.queue.length < 256 ∧ ∃ a, (fetch s).1 = .int a)) := by
    rcases h.queue with hkeep | ⟨⟨m, hm⟩, hmode, hroom, hint⟩
    · exact ⟨[], by simp [hkeep], .inl rfl⟩
    · exact ⟨[m], hm, .inr ⟨hmode, rfl, hroom, hint⟩⟩
  exact ⟨⟨added, .inl hu, hadded⟩, ⟨added, hu ▸ attemptDelivery_queue u, hadded⟩⟩

/-- Settles O9: by whether the machine is halted; the delivery attempt leaves the error latch. -/
theorem stepAlwaysAnswers : Obligations.StepAlwaysAnswers := by
  intro s
  cases he : s.error with
  | some e => exact ⟨s, .halted, step_of_halted (by simp [he]), stepReturn_of_halted (by simp [he]), by simp [he]⟩
  | none =>
    obtain ⟨u, hu, -⟩ := exec_next (fetch s).1 s
    refine ⟨_, _, step_of_exec he hu, stepReturn_of_exec he hu, ?_⟩
    cases hue : u.error with
    | some e => simp [hue]
    | none => simp [hue, attemptDelivery_error]

/-- Settles O10: an effect that changes the error latch is that of an unassigned opcode, and its step attempts no
delivery. -/
theorem faultingStepDeliversNothing : Obligations.FaultingStepDeliversNothing := by
  intro s t hstep hs ht
  have htSome : t.error.isSome = true := Option.isSome_iff_ne_none.mpr ht
  rcases step_cases hstep with ⟨hhalted, -⟩ | ⟨-, u, -, heffect, ⟨-, rfl⟩ | ⟨hu, rfl⟩⟩
  · simp [hs] at hhalted
  · rcases heffect.halt with ⟨hkeep, -⟩ | ⟨kind, data, q, -, hq, rfl⟩
    · exact absurd (hkeep.trans hs) ht
    · exact ⟨by rw [fetch_count]; rfl, hq, step_of_halted htSome⟩
  · exact absurd ((attemptDelivery_error u).trans hu) ht

/-- Settles O7: the fetch answers the instruction, whose step and return value are those of its `exec`. -/
theorem stepRunsDecodedInstruction : Obligations.StepRunsDecodedInstruction := by
  intro i s hs hw hwords
  have hfetch : (fetch s).1 = i := congrArg Prod.fst (fetch_of_encoded hw hwords)
  refine ⟨?_, fun t ht => ?_⟩
  · obtain ⟨u, hu, -⟩ := exec_next i s
    rw [step_of_exec hs (hfetch ▸ hu), hu]
  · rw [stepReturn_of_exec hs (hfetch ▸ ht), hfetch]

/-- Settles O43: the cleared machine is not halted, and fetches from the same PC and memory. -/
theorem clearErrorResumesAtThePc : Obligations.ClearErrorResumesAtThePc := by
  intro s
  obtain ⟨u, hu, -⟩ := exec_next (fetch s).1 (clearError s)
  exact ⟨rfl, u, hu, step_of_exec rfl hu⟩

/-- Settles O11: nothing is pending and nothing is latched. -/
theorem resetMeetsInvariant : Obligations.ResetMeetsInvariant :=
  ⟨Memory.reset_wf, Nat.zero_le _, rfl, by simp [State.reset]⟩

end Sys2Proof
end

section
/-! The proofs about signed division, the shifts and SBX (41_arith.md, 42_logic_shift.md, 44_carry_block.md): what each
computes is said of two words, and the instruction then writes that for the values it read. -/

namespace Sys2Proof.Machine

/-! ## Signed division (R152, R156) -/

/-- The truncating quotient of the signed readings is that of the words; −32768 / −1 narrows to 0x8000 in both. -/
theorem trunc16_s16_tdiv (vb va : Word) : trunc16 ((s16 vb).tdiv (s16 va)) = vb.sdiv va :=
  BitVec.eq_of_toInt_eq (by rw [trunc16, BitVec.toInt_ofInt, BitVec.toInt_sdiv, s16, s16])

/-- The remainder of the signed readings is that of the words. -/
theorem trunc16_s16_tmod (vb va : Word) : trunc16 ((s16 vb).tmod (s16 va)) = vb.srem va := by
  rw [trunc16, s16, s16, ← BitVec.toInt_srem, BitVec.ofInt_toInt]

/-- Narrowing takes the low 16 bits of a wider word. -/
theorem trunc16_toInt {w : Nat} (hw : 16 ≤ w) (x : BitVec w) : trunc16 x.toInt = x.extractLsb' 0 16 := by
  apply BitVec.eq_of_toInt_eq
  rw [trunc16, BitVec.toInt_ofInt, BitVec.toInt_extractLsb', Nat.shiftRight_zero, BitVec.toInt_eq_toNat_bmod,
    Int.bmod_bmod_of_dvd (Nat.pow_dvd_pow 2 hw)]

/-- A word scaled by 65536 fits 33 bits. -/
theorem toInt_scaled (v : Word) : (v.signExtend 33 <<< 16 : BitVec 33).toInt = s16 v * 65536 := by
  have hl := v.le_toInt
  have hu := v.toInt_lt
  have hpow : (BitVec.twoPow 33 16).toInt = 65536 := by decide
  rw [BitVec.shiftLeft_eq_mul_twoPow, BitVec.toInt_mul, BitVec.toInt_signExtend_of_le (by omega), hpow, s16]
  exact Int.bmod_eq_of_le (by omega) (by omega)

/-- R152: the scaled quotient in 33 bits, of which EX takes the low half. -/
theorem trunc16_scaled_tdiv (vb va : Word) : trunc16 ((s16 vb * 65536).tdiv (s16 va)) =
    ((vb.signExtend 33 <<< 16 : BitVec 33).sdiv (va.signExtend 33)).extractLsb' 0 16 := by
  have hva : s16 va = (va.signExtend 33).toInt := (BitVec.toInt_signExtend_of_le (by omega)).symm
  rw [← toInt_scaled, hva, ← trunc16_toInt (by omega), BitVec.toInt_sdiv]
  apply BitVec.eq_of_toInt_eq
  rw [trunc16, trunc16, BitVec.toInt_ofInt, BitVec.toInt_ofInt, Int.bmod_bmod_of_dvd (Nat.pow_dvd_pow 2 (by omega))]

/-- R152, for a divisor other than zero. -/
theorem dviResult_of_ne_zero (vb : Word) {va : Word} (h : va ≠ 0) :
    dviResult vb va =
      { res := vb.sdiv va
        exv := ((vb.signExtend 33 <<< 16 : BitVec 33).sdiv (va.signExtend 33)).extractLsb' 0 16 } := by
  rw [dviResult, if_neg h, trunc16_s16_tdiv, trunc16_scaled_tdiv]

/-- R152, for the divisor zero. -/
theorem dviResult_of_zero (vb : Word) {va : Word} (h : va = 0) : dviResult vb va = { res := 0, exv := 0 } :=
  if_pos h

/-- R156: the remainder of words, and 0 for a zero divisor. -/
theorem mdiResult_eq (vb va : Word) : mdiResult vb va = if va = 0 then 0 else vb.srem va := by
  rw [mdiResult, trunc16_s16_tmod]

/-! ## Shifts (R184, R186, R188) -/

/-- A word scaled by 65536 fits 32 bits. -/
theorem toNat_scaled (v : Word) : (v.setWidth 32 <<< 16 : BitVec 32).toNat = v.toNat <<< 16 := by
  have hv := v.isLt
  simp only [BitVec.toNat_shiftLeft, BitVec.toNat_setWidth, Nat.shiftLeft_eq]
  omega

/-- The bits that a right shift moves out are the low half of the 32-bit shift. -/
theorem shiftedOut_eq (vb va : Word) :
    shiftedOut vb va = ((vb.setWidth 32 <<< 16 : BitVec 32) >>> va.toNat).extractLsb' 0 16 := by
  apply BitVec.eq_of_toNat_eq
  rw [shiftedOut, BitVec.toNat_ofNat, BitVec.extractLsb'_toNat, BitVec.toNat_ushiftRight, toNat_scaled,
    Nat.shiftRight_zero, Nat.shiftLeft_eq]

/-- The bits that stay are its high half. -/
theorem shiftRight_eq_high (vb va : Word) : BitVec.ofNat 16 (vb.toNat >>> va.toNat) =
    ((vb.setWidth 32 <<< 16 : BitVec 32) >>> va.toNat).extractLsb' 16 16 := by
  apply BitVec.eq_of_toNat_eq
  rw [BitVec.toNat_ofNat, BitVec.extractLsb'_toNat, BitVec.toNat_ushiftRight, toNat_scaled, ← Nat.shiftRight_add,
    Nat.add_comm, Nat.shiftRight_add, Nat.shiftLeft_shiftRight]

/-- R184. -/
theorem shrResult_eq (vb va : Word) :
    shrResult vb va =
      { res := ((vb.setWidth 32 <<< 16 : BitVec 32) >>> va.toNat).extractLsb' 16 16
        exv := ((vb.setWidth 32 <<< 16 : BitVec 32) >>> va.toNat).extractLsb' 0 16 } := by
  rw [shrResult, shiftRight_eq_high, shiftedOut_eq]

/-- R186: the sign-filling shift, with the EX of SHR. -/
theorem asrResult_eq (vb va : Word) :
    asrResult vb va =
      { res := vb.sshiftRight va.toNat
        exv := ((vb.setWidth 32 <<< 16 : BitVec 32) >>> va.toNat).extractLsb' 0 16 } := by
  rw [asrResult, shiftedOut_eq]; rfl

/-- R188: the two halves of the 32-bit shift to the left. -/
theorem shlResult_eq (vb va : Word) :
    shlResult vb va =
      { res := (vb.setWidth 32 <<< va.toNat : BitVec 32).extractLsb' 0 16
        exv := (vb.setWidth 32 <<< va.toNat : BitVec 32).extractLsb' 16 16 } := by
  have hleft : (vb.setWidth 32 <<< va.toNat : BitVec 32) = BitVec.ofInt 32 ((vb.toNat <<< va.toNat : Nat) : Int) := by
    apply BitVec.eq_of_toNat_eq
    rw [BitVec.ofInt_natCast, BitVec.toNat_ofNat, BitVec.toNat_shiftLeft,
      BitVec.toNat_setWidth_of_le (by omega)]
  rw [← narrow_of_ofInt_eq hleft.symm, narrow, trunc16_natCast, hi16_natCast, shlResult]

/-! ## SBX (R242) -/

/-- The EX of a number from −131072 up to −65537 is 0xFFFE. -/
theorem hi16_of_two_borrows {n : Int} (hl : -131072 ≤ n) (hu : n < -65536) : hi16 n = 0xFFFE := by
  have : n / 65536 = -2 := by omega
  rw [hi16, this]; rfl

/-- R242 under `Minus`: `hi16` of the difference counts its borrows, at most 2. -/
theorem sbxResult_minus (vb va c : Word) :
    sbxResult .minus vb va c =
      { res := vb - va - c
        exv := if va.toNat + c.toNat ≤ vb.toNat then 0
          else if va.toNat + c.toNat ≤ vb.toNat + 65536 then 0xFFFF else 0xFFFE } := by
  have hb := vb.isLt
  have ha := va.isLt
  have hc := c.isLt
  have hex : hi16 (u16 vb - u16 va - u16 c) = if va.toNat + c.toNat ≤ vb.toNat then 0
      else if va.toNat + c.toNat ≤ vb.toNat + 65536 then 0xFFFF else 0xFFFE := by
    unfold u16
    split_ifs
    · exact hi16_of_small (by omega) (by omega)
    · exact hi16_of_borrow (by omega) (by omega)
    · exact hi16_of_two_borrows (by omega) (by omega)
  simp only [sbxResult, narrow, hex, trunc16_sub, trunc16_u16]

/-- R242 under `Plus`: EX is added, so there is at most one borrow, or one carry. -/
theorem sbxResult_plus (vb va c : Word) :
    sbxResult .plus vb va c =
      { res := vb - va + c
        exv := if vb.toNat + c.toNat < va.toNat then 0xFFFF
          else if vb.toNat + c.toNat < va.toNat + 65536 then 0 else 1 } := by
  have hb := vb.isLt
  have ha := va.isLt
  have hc := c.isLt
  have hex : hi16 (u16 vb - u16 va + u16 c) = if vb.toNat + c.toNat < va.toNat then 0xFFFF
      else if vb.toNat + c.toNat < va.toNat + 65536 then 0 else 1 := by
    unfold u16
    split_ifs
    · exact hi16_of_borrow (by omega) (by omega)
    · exact hi16_of_small (by omega) (by omega)
    · exact hi16_of_carry (by omega) (by omega)
  simp only [sbxResult, narrow, hex, trunc16_add, trunc16_sub, trunc16_u16]

/-- SBX writes its result for the EX that the reads left, which is the EX before them. -/
theorem subtractWithEx_eq {sign : SbxExSign} {b a : Operand} {s : State} {res exv : Word}
    (h : sbxResult sign (readBoth b a s).vb (readBoth b a s).va s.ex = { res := res, exv := exv }) :
    subtractWithEx sign b a s = writeResult Config.exWriteOrder b res exv (readBoth b a s).after :=
  computeEx_of_result (by rw [readBoth_ex]; exact h)

end Sys2Proof.Machine

namespace Sys2Proof
open Machine

/-! ## The obligations -/

/-- Settles O27: by whether the divisor that was read is zero. -/
theorem signedDivisionTruncates : Obligations.SignedDivisionTruncates := by
  intro b a s ra rb scaled
  refine ⟨congrArg Host.Outcome.next ?_, congrArg Host.Outcome.next (compute_of_result (mdiResult_eq _ _))⟩
  split
  next hzero => exact computeEx_of_result (dviResult_of_zero rb.1 hzero)
  next hne => exact computeEx_of_result (dviResult_of_ne_zero rb.1 hne)

/-- Settles O30: each of the three writes the result of its lemma. -/
theorem shiftsByTheWholeAmount : Obligations.ShiftsByTheWholeAmount := fun _ _ _ =>
  ⟨congrArg Host.Outcome.next (computeEx_of_result (shrResult_eq _ _)),
    congrArg Host.Outcome.next (computeEx_of_result (asrResult_eq _ _)),
    congrArg Host.Outcome.next (computeEx_of_result (shlResult_eq _ _))⟩

/-- Settles O32: this machine's sign is `Minus`, and each sign has its lemma. -/
theorem sbxResultUnderBothSigns : Obligations.SbxResultUnderBothSigns := fun _ _ _ =>
  ⟨rfl, subtractWithEx_eq (sbxResult_minus _ _ _), subtractWithEx_eq (sbxResult_plus _ _ _)⟩

end Sys2Proof
end

section
/-! The proofs about operands and assignment (40_dispatch_and_operands.md sections 2 and 3, 41_arith.md SET,
44_carry_block.md STI and STD). -/

namespace Sys2Proof.Machine

/-- Where the destination is not EX, the write of the result and that of EX can change places (R126). -/
theorem writeOperand_ex_comm {b : Operand} (hb : b ≠ .exReg) (v e : Word) (s : State) :
    { writeOperand b v s with ex := e } = writeOperand b v { s with ex := e } := by
  cases b with
  | exReg => exact absurd rfl hb
  | _ => rfl

/-- The cursors are the registers I and J (R244). -/
theorem moveCursors_eq_set (d : Word) (s : State) :
    moveCursors d s = { s with regs := (s.regs.set .i (s.reg .i + d)).set .j (s.reg .j + d) } := rfl

/-- SET PUSH pushes the value of its source (R115). -/
theorem assign_push (a : Operand) (s : State) :
    assign .pushPop a s = (readA .pushPop a s).2.push (readA .pushPop a s).1 := rfl

/-- SET of a register from POP takes the word at SP (R115). -/
theorem assign_pop (r : Reg) (s : State) :
    assign (.regVal r) .pushPop s =
      { s with pc := s.pc + 1, sp := s.sp + 1, regs := s.regs.set r (s.mem.read s.sp) } := rfl

end Sys2Proof.Machine

namespace Sys2Proof
open Machine

/-! ## The obligations -/

/-- Settles O20: by whether the destination is EX. -/
theorem writeResultFollowsOrder : Obligations.WriteResultFollowsOrder := by
  intro b res exv s
  by_cases hb : b = .exReg
  · subst hb
    exact ⟨rfl, rfl⟩
  · exact ⟨writeResult_of_ne _ hb res exv s, (writeResult_of_ne _ hb res exv s).trans (writeOperand_ex_comm hb res exv s)⟩

/-- Settles O18: SET of a register runs on each source form. -/
theorem setReadsEverySource : Obligations.SetReadsEverySource := fun _ _ _ _ =>
  ⟨rfl, rfl, rfl, rfl, rfl, rfl, rfl, rfl, rfl, rfl, rfl, rfl⟩

/-- Settles O19: SET of a literal runs on each destination form. -/
theorem setWritesEveryDestination : Obligations.SetWritesEveryDestination := fun _ _ _ _ =>
  ⟨rfl, rfl, rfl, rfl, rfl, rfl, rfl, rfl, rfl, rfl, rfl, rfl⟩

/-- Settles O22: the cursors of STI and STD move by 1 and by −1 after the assignment. -/
theorem assignmentsReadThenWrite : Obligations.AssignmentsReadThenWrite := by
  intro b a s ra w
  refine ⟨rfl, congrArg Host.Outcome.next (moveCursors_eq_set 1 w), ?_⟩
  rw [sub_eq_add_neg, sub_eq_add_neg]
  exact congrArg Host.Outcome.next (moveCursors_eq_set (-1) w)

/-- Settles O21: the word that SET of the register pops is the one that SET PUSH stored at the same SP. -/
theorem pushThenPopRoundTrips : Obligations.PushThenPopRoundTrips := by
  intro a r s
  refine ⟨assign .pushPop a s, assign (.regVal r) .pushPop (assign .pushPop a s), rfl, rfl, ?_, ?_, fun q hq => ?_⟩ <;>
    rw [assign_pop, assign_push]
  · simp [State.reg, readA]
  · simp [readA_state]
  · have hqr : q ≠ r := fun h => hq (by rw [h])
    simp [State.reg, readA, Regs.get_set_other _ _ hqr]

end Sys2Proof
end

section
/-! The proofs about the conditionals, the skip protocol and the cost (43_conditional.md, 46_cost.md). -/

namespace Sys2Proof.Machine

/-! ## The eight conditionals by their tests (R211 to R218) -/

/-- Each conditional with the value of its test for two operand values, in the terms of words. -/
def conditionalValues (b a : Operand) (vb va : Word) : List (Instr × Bool) :=
  [(.ifb b a, vb &&& va != 0), (.ifc b a, vb &&& va == 0), (.ife b a, vb == va), (.ifn b a, vb != va),
    (.ifg b a, va.ult vb), (.ifa b a, va.slt vb), (.ifl b a, vb.ult va), (.ifu b a, vb.slt va)]

/-- An instruction is the conditional with this test, and has its operands. -/
def IsConditionalOn (test : Word → Word → Bool) (b a : Operand) (i : Instr) : Prop :=
  (∀ s, exec i s = conditional params test b a s) ∧ (∀ s, skipped i s = skippedBy params test b a s) ∧
    i.extraWords = a.extraWords + b.extraWords

/-- Each of the eight is a conditional on a test with that value. -/
theorem isConditionalOn_of_mem (b a : Operand) (vb va : Word) :
    ∀ p ∈ conditionalValues b a vb va, ∃ test, IsConditionalOn test b a p.1 ∧ test vb va = p.2 := by
  simp only [conditionalValues, List.forall_mem_cons]
  exact ⟨⟨ifbTest, ⟨fun _ => rfl, fun _ => rfl, rfl⟩, rfl⟩, ⟨ifcTest, ⟨fun _ => rfl, fun _ => rfl, rfl⟩, rfl⟩,
    ⟨ifeTest, ⟨fun _ => rfl, fun _ => rfl, rfl⟩, rfl⟩, ⟨ifnTest, ⟨fun _ => rfl, fun _ => rfl, rfl⟩, rfl⟩,
    ⟨ifgTest, ⟨fun _ => rfl, fun _ => rfl, rfl⟩, rfl⟩, ⟨ifaTest, ⟨fun _ => rfl, fun _ => rfl, rfl⟩, rfl⟩,
    ⟨iflTest, ⟨fun _ => rfl, fun _ => rfl, rfl⟩, rfl⟩, ⟨ifuTest, ⟨fun _ => rfl, fun _ => rfl, rfl⟩, rfl⟩,
    fun _ h => nomatch h⟩

/-- A conditional whose test holds skips nothing (R219). -/
theorem skippedBy_holds {P : Params} {test : Word → Word → Bool} {b a : Operand} {s : State}
    (h : test (readBoth b a s).vb (readBoth b a s).va = true) : skippedBy P test b a s = 0 := by
  simp [skippedBy, conditionalOn, h]

/-- An instruction that is no conditional skips nothing (R220). -/
theorem skippedUnder_of_not_conditional (P : Params) {i : Instr} (h : i.isConditional = false) (s : State) :
    skippedUnder P i s = 0 := by
  cases i with
  | ifb b a | ifc b a | ife b a | ifn b a | ifg b a | ifa b a | ifl b a | ifu b a => cases h
  | _ => rfl

/-! ## Runs of the skip protocol (R221, R223) -/

/-- Unwrapped positions stand for words modulo 65536 (R221). -/
theorem ofNat_toNat_add (x : Word) (n : Nat) : BitVec.ofNat 16 (x.toNat + n) = x + BitVec.ofNat 16 n := by
  rw [BitVec.ofNat_add, BitVec.ofNat_toNat, BitVec.setWidth_eq]

section
variable {num : Numbering} {m : Memory} {p e k : Nat}

/-- Under Wrap a chain runs alike from positions that stand for the same word. -/
theorem SkipRunUnder.of_same_word (h : SkipRunUnder num .wrap m p e k) {p' : Nat}
    (hp : BitVec.ofNat 16 p = BitVec.ofNat 16 p') : ∃ e', SkipRunUnder num .wrap m p' e' k := by
  induction h generalizing p' with
  | atTop hpolicy => cases hpolicy
  | last _ hc =>
    rw [hp] at hc
    exact ⟨_, .last (by simp) hc⟩
  | @more p e k _ hc _ ih =>
    obtain ⟨e', hrun⟩ := ih (p' := p' + (decodeAtUnder num m (BitVec.ofNat 16 p)).2)
      (by rw [BitVec.ofNat_add, BitVec.ofNat_add, hp])
    rw [hp] at hc hrun
    exact ⟨e', .more (by simp) hc hrun⟩

/-- A chain of `k` instructions passes a position from which `j` are left, for each `j` from 1 to `k`. -/
theorem SkipRunUnder.exists_left {policy : SkipEndPolicy} (h : SkipRunUnder num policy m p e k) {j : Nat}
    (hj : 1 ≤ j) (hjk : j ≤ k) : ∃ q e', SkipRunUnder num policy m q e' j := by
  induction h with
  | atTop => omega
  | last ht hc =>
    obtain rfl : j = 1 := by omega
    exact ⟨_, _, .last ht hc⟩
  | @more p e k ht hc hrun ih =>
    rcases Nat.lt_or_eq_of_le hjk with hlt | rfl
    · exact ih (by omega)
    · exact ⟨_, _, .more ht hc hrun⟩

/-- Under Wrap a chain that ends passes no word twice, so it skips at most 65536 instructions. -/
theorem SkipRunUnder.count_le (h : SkipRunUnder num .wrap m p e k) : k ≤ 65536 := by
  choose q e' hrun using fun j : Fin k => h.exists_left (j := j + 1) (by omega) (by omega)
  have hinj : Function.Injective fun j => (BitVec.ofNat 16 (q j)).toFin := by
    intro i j hij
    obtain ⟨_, hi⟩ := (hrun i).of_same_word (BitVec.toFin_inj.mp hij)
    obtain ⟨-, hcount⟩ := hi.unique (hrun j)
    exact Fin.ext (by omega)
  simpa using Fintype.card_le_of_injective _ hinj

/-- The loop's fuel lasts for every chain that ends under Wrap. -/
theorem skipChainUnder_wrap_iff {start : Word} {n : Nat} :
    skipChainUnder num .wrap m start n = some (e, k) ↔ SkipRunUnder num .wrap m (start.toNat + n) e k := by
  constructor
  · intro h
    obtain ⟨k', hk, hrun⟩ := skipLoop_sound h
    rw [hk, Nat.zero_add]
    exact hrun
  · intro h
    have hfuel : k < skipFuel := Nat.lt_succ_of_le h.count_le
    rw [skipChainUnder, skipLoop_complete h hfuel, Nat.zero_add]

end

end Sys2Proof.Machine

namespace Sys2Proof
open Machine

/-! ## The obligations -/

/-- Settles O36. -/
theorem wrapSkipAnswersExactlyTheEndingChains : Obligations.WrapSkipAnswersExactlyTheEndingChains := fun _ _ _ _ _ =>
  skipChainUnder_wrap_iff

/-- Settles O33: a conditional with this value is one whose test holds of the operands read. -/
theorem holdingConditionalOnlyReads : Obligations.HoldingConditionalOnlyReads := by
  intro b a s ra rb p hp hholds
  obtain ⟨test, ⟨hexec, -, -⟩, htest⟩ := isConditionalOn_of_mem b a rb.1 ra.1 p hp
  rw [hexec, conditional_holds (htest.trans hholds)]
  rfl

/-- Settles O34: a conditional with this value is one whose test fails of the operands read. -/
theorem failingConditionalSkipsItsChain : Obligations.FailingConditionalSkipsItsChain := by
  intro b a s ra rb p hp hfails
  obtain ⟨test, ⟨hexec, hskipped, -⟩, htest⟩ := isConditionalOn_of_mem b a rb.1 ra.1 p hp
  obtain ⟨e, k, hrun, hcount, hnext⟩ := conditional_fails (htest.trans hfails)
  exact ⟨e, k, hrun, (hexec s).trans hnext, (hskipped s).trans hcount⟩

/-- Settles O35: the chain of IFE is the run of one instruction, and a chain has one end. -/
theorem nextNonConditionalIsSkippedAlone : Obligations.NextNonConditionalIsSkippedAlone := by
  intro b a s n ra rb next hne htop hnext
  obtain ⟨e, k, hrun, hexec, hskipped⟩ :=
    failingConditionalSkipsItsChain b a s (.ife b a, rb.1 == ra.1) (by simp [rb, ra, n]) (beq_eq_false_iff_ne.mpr hne)
  have hpos : BitVec.ofNat 16 (s.pc.toNat + n) = s.pc + BitVec.ofNat 16 n := ofNat_toNat_add s.pc n
  have hone : SkipRun .stopAtTop s.mem (s.pc.toNat + n) (s.pc.toNat + n + next.2) 1 := by
    have hlast := SkipRunUnder.last (num := dcpu16Numbering) (policy := .stopAtTop) (m := s.mem) (p := s.pc.toNat + n)
      (by simpa using htop) (by rw [hpos]; exact hnext)
    rwa [hpos] at hlast
  obtain ⟨rfl, rfl⟩ := hrun.unique hone
  refine ⟨?_, hskipped⟩
  rw [hexec, Nat.add_assoc, ofNat_toNat_add]

/-- Settles O47: each of the eight by `conditional_next`. -/
theorem conditionalFrame : Obligations.ConditionalFrame := by
  intro b a s
  simp only [List.forall_mem_cons]
  exact ⟨conditional_next ifbTest b a s, conditional_next ifcTest b a s, conditional_next ifeTest b a s,
    conditional_next ifnTest b a s, conditional_next ifgTest b a s, conditional_next ifaTest b a s,
    conditional_next iflTest b a s, conditional_next ifuTest b a s, fun _ h => nomatch h⟩

/-- Settles O58: the surcharge counts the extra words, and only a failing conditional skips, as far as its chain runs. -/
theorem costIsBaseSurchargeAndSkips : Obligations.CostIsBaseSurchargeAndSkips := by
  intro table i b a s ra rb
  refine ⟨fun hi => ?_, fun p hp => ?_⟩
  · rw [costUnder, skipped, skippedUnder_of_not_conditional params hi, surcharge, Instr.view_extraWords]
    rfl
  obtain ⟨test, ⟨-, hskipped, hextra⟩, htest⟩ := isConditionalOn_of_mem b a rb.1 ra.1 p hp
  rw [costUnder, surcharge, hextra, hskipped]
  refine ⟨fun hholds => ?_, fun e k hfails hrun => ?_⟩
  · rw [skippedBy_holds (htest.trans hholds)]
    rfl
  · obtain ⟨e', k', hrun', hcount, -⟩ := conditional_fails (htest.trans hfails)
    obtain ⟨-, rfl⟩ := hrun.unique hrun'
    rw [hcount]

end Sys2Proof
end

section
/-! The proofs about the special instructions and the unassigned opcodes (45_special.md, 60_exceptions.md section 1): the
state each one answers, in the terms of the state before it. -/

namespace Sys2Proof.Machine

/-! ## The special instructions in `Wired` mode (R263 to R270) -/

/-- R263: the word stored is the address after JSR, which the read leaves. -/
theorem jsrWired_eq (a : Operand) (s : State) :
    jsrWired a s = { (readSpecial a s).2 with
      sp := (readSpecial a s).2.sp - 1
      mem := (readSpecial a s).2.mem.write ((readSpecial a s).2.sp - 1) (s.advance (specialLength a)).pc
      pc := (readSpecial a s).1 } := by
  simp [jsrWired, readSpecial, State.push]

/-- R264, R322: the read leaves the queue, so it decides whether the message fits. -/
theorem intWired_eq (a : Operand) (s : State) :
    intWired a s = if 256 ≤ s.queue.length then { (readSpecial a s).2 with onFire := true }
      else { (readSpecial a s).2 with queue := s.queue ++ [(readSpecial a s).1] } := by
  have hqueue : (readSpecial a s).2.queue = s.queue := readOperand_queue a _
  rw [intWired]
  split
  next hfull => rw [enqueue_full (by rw [hqueue]; exact hfull)]
  next hroom => rw [enqueue_room (by rw [hqueue]; exact Nat.lt_of_not_le hroom), hqueue]

/-- R268: A and then PC are popped. -/
theorem rfiWired_eq (a : Operand) (s : State) :
    rfiWired a s = { s with
      regs := s.regs.set .a (s.mem.read s.sp), pc := s.mem.read (s.sp + 1), sp := s.sp + 2
      queueInterrupts := false } := by
  have hsp : s.sp + 1 + 1 = s.sp + 2 := BitVec.add_assoc ..
  rw [← hsp]
  rfl

/-- R270. -/
theorem iaqWired_eq (a : Operand) (s : State) :
    iaqWired a s = { (readSpecial a s).2 with queueInterrupts := decide ((readSpecial a s).1 ≠ 0) } := by
  simp [iaqWired, bne, beq_eq_decide]

/-! ## The fault of an unassigned opcode (R85, R86, R109, R313) -/

/-- SP keeps the pops of the operand reads, where there were reads. -/
theorem discardBasic_eq (reads : Bool) (b a : Operand) (s : State) :
    discardBasic reads b a s = { s with
      pc := s.pc + BitVec.ofNat 16 (basicLength b a)
      sp := if reads then s.sp + popMove a + popMove b else s.sp } := by
  cases reads with
  | true => exact readBoth_after b a s
  | false => rfl

/-- The same for the special format. -/
theorem discardSpecial_eq (reads : Bool) (a : Operand) (s : State) :
    discardSpecial reads a s = { s with
      pc := s.pc + BitVec.ofNat 16 (specialLength a), sp := if reads then s.sp + popMove a else s.sp } := by
  cases reads with
  | true => exact readSpecial_state a s
  | false => rfl

/-- The record holds the address that `FAULT_PC` names (R313). -/
theorem latch_eq (fp : FaultPc) (kind : FaultKind) (data start : Word) (s : State) :
    latch fp kind data start s = { s with
      error := some (faultRecord kind data (if fp = .instrStart then start else s.pc)), halted := true } := by
  cases fp <;> rfl

end Sys2Proof.Machine

namespace Sys2Proof
open Machine

/-! ## The obligations -/

/-- Settles O37, by the mode. -/
theorem jsrPushesTheReturnAddress : Obligations.JsrPushesTheReturnAddress := by
  intro a s s1 ra
  refine congrArg Host.Outcome.next (?_ : byMode Config.specialMode a (jsrWired a) s = _)
  cases Config.specialMode with
  | noOp => rfl
  | wired => exact jsrWired_eq a s

/-- Settles O38, by the mode. -/
theorem intEnqueuesAndIasSetsIa : Obligations.IntEnqueuesAndIasSetsIa := by
  intro a s s1 ra
  refine ⟨congrArg Host.Outcome.next (?_ : byMode Config.specialMode a (intWired a) s = _),
    congrArg Host.Outcome.next (?_ : byMode Config.specialMode a (iasWired a) s = _)⟩
  · cases Config.specialMode with
    | noOp => rfl
    | wired => exact intWired_eq a s
  · cases Config.specialMode <;> rfl

/-- Settles O39, by the mode. -/
theorem iagRfiAndIaqInEitherMode : Obligations.IagRfiAndIaqInEitherMode := by
  intro a s s1 ra
  refine ⟨congrArg Host.Outcome.next (?_ : byMode Config.specialMode a (iagWired a) s = _),
    congrArg Host.Outcome.next (?_ : byMode Config.specialMode a (rfiWired a) s = _),
    congrArg Host.Outcome.next (?_ : byMode Config.specialMode a (iaqWired a) s = _)⟩
  · cases Config.specialMode <;> rfl
  · cases Config.specialMode with
    | noOp => rfl
    | wired => exact rfiWired_eq a s
  · cases Config.specialMode with
    | noOp => rfl
    | wired => exact iaqWired_eq a s

/-- Settles O40: each of the three only advances. -/
theorem hardwareInstructionsOnlyMoveThePc : Obligations.HardwareInstructionsOnlyMoveThePc := by
  intro a s
  simp only [List.forall_mem_cons]
  exact ⟨rfl, rfl, rfl, fun _ h => nomatch h⟩

/-- Settles O41: the latch records what the parameters name, in the state that the reads left. -/
theorem invalidOpcodeFaultUnderEveryParameter : Obligations.InvalidOpcodeFaultUnderEveryParameter := by
  intro reads fp o b a s pcB pcS
  refine ⟨?_, ?_⟩
  · rw [faultBasic, latch_eq, discardBasic_eq, BitVec.ofNat_toNat]
  · rw [faultSpecial, latch_eq, discardSpecial_eq, BitVec.ofNat_toNat]

/-- Settles O42: the case of this machine's two parameters. -/
theorem invalidOpcodeHaltsTheMachine : Obligations.InvalidOpcodeHaltsTheMachine := by
  intro o b a s
  obtain ⟨hbasic, hspecial⟩ := invalidOpcodeFaultUnderEveryParameter true .instrStart o b a s
  exact ⟨congrArg Host.Outcome.next hbasic, congrArg Host.Outcome.next hspecial⟩

end Sys2Proof
end

section
/-! The proofs about frames (40_dispatch_and_operands.md section 3, 10_state.md section 2): what a write of an operand
keeps, and from it what the instructions with a destination keep. -/

namespace Sys2Proof.Machine

/-! ## What a write keeps (R121) -/

/-- A write changes only what its operand names, and SP where it pushes. -/
theorem writeOperand_frame (op : Operand) (v : Word) (s : State) (p q : Word) :
    let u := { s with pc := p, sp := q }
    let t := writeOperand op v u
    KeepsRegsBut op s t ∧ KeepsControl s t ∧ (op ≠ .spReg → t.sp = q - popMove op) ∧ (op ≠ .pcReg → t.pc = p) ∧
      (op ≠ .exReg → t.ex = s.ex) ∧ KeepsMemoryBut (storeAddress op u) s t := by
  intro u t
  refine ⟨fun r hr => ?_, by simp [KeepsControl, t, u], fun hsp => ?_, fun hpc => ?_, fun hex => ?_,
    writeOperand_keeps_memory op v u⟩
  · exact (writeOperand_reg op v u r).trans (if_neg hr)
  · exact (writeOperand_sp op v u).trans (if_neg hsp)
  · exact (writeOperand_pc op v u).trans (if_neg hpc)
  · exact (writeOperand_ex op v u).trans (if_neg hex)

/-- Only PUSH and POP move SP (R115). -/
theorem popMove_of_ne {op : Operand} (h : op ≠ .pushPop) : popMove op = 0 := by
  cases op with
  | pushPop => exact absurd rfl h
  | _ => rfl

/-! ## What the access patterns keep (R106, R107) -/

/-- Both reads move PC and SP; a write to the `b` that was read takes SP back by `b`'s pop. -/
theorem computeEx_frame (P : Params) (f : Word → Word → Word → ResultEx) (b a : Operand) (s : State) :
    let t := computeEx P f b a s
    KeepsRegsBut b s t ∧ KeepsControl s t ∧ (b ≠ .spReg → t.sp = s.sp + popMove a) ∧
      (b ≠ .pcReg → t.pc = s.pc + BitVec.ofNat 16 (basicLength b a)) ∧
      KeepsMemoryBut (storeAddress b (readBoth b a s).after) s t := by
  intro t
  obtain ⟨v, e, ht⟩ : ∃ v e, t = _ := computeEx_writes P f b a s
  rw [ht, readBoth_after]
  obtain ⟨hregs, hcontrol, hsp, hpc, -, hmem⟩ := writeOperand_frame b v s _ _
  exact ⟨hregs, hcontrol, fun h => (hsp h).trans (BitVec.add_sub_cancel _ _), hpc, hmem⟩

/-- The same where EX is not touched. -/
theorem compute_frame (f : Word → Word → Word) (b a : Operand) (s : State) :
    let t := compute f b a s
    KeepsRegsBut b s t ∧ KeepsControl s t ∧ (b ≠ .spReg → t.sp = s.sp + popMove a) ∧
      (b ≠ .pcReg → t.pc = s.pc + BitVec.ofNat 16 (basicLength b a)) ∧ (b ≠ .exReg → t.ex = s.ex) ∧
      KeepsMemoryBut (storeAddress b (readBoth b a s).after) s t := by
  simp only [compute, readBoth_after]
  obtain ⟨hregs, hcontrol, hsp, hkept⟩ := writeOperand_frame b _ s _ _
  exact ⟨hregs, hcontrol, fun h => (hsp h).trans (BitVec.add_sub_cancel _ _), hkept⟩

/-- Only `a` is read, so a destination PUSH moves SP down (D8). -/
theorem assign_frame (b a : Operand) (s : State) :
    let t := assign b a s
    KeepsRegsBut b s t ∧ KeepsControl s t ∧ (b ≠ .spReg → t.sp = s.sp + popMove a - popMove b) ∧
      (b ≠ .pcReg → t.pc = s.pc + BitVec.ofNat 16 (basicLength b a)) ∧ (b ≠ .exReg → t.ex = s.ex) ∧
      KeepsMemoryBut (storeAddress b (readA b a s).2) s t := by
  simp only [assign, readA_state]
  exact writeOperand_frame b _ s _ _

/-- STI and STD move the cursors after the assignment, which are I and J alone (R244). -/
theorem copy_frame (d : Word) (b a : Operand) (s : State) :
    let t := moveCursors d (assign b a s)
    (∀ r, b ≠ .regVal r → r ≠ .i ∧ r ≠ .j → t.reg r = s.reg r) ∧ KeepsControl s t ∧
      (b ≠ .spReg → t.sp = s.sp + popMove a - popMove b) ∧
      (b ≠ .pcReg → t.pc = s.pc + BitVec.ofNat 16 (basicLength b a)) ∧ (b ≠ .exReg → t.ex = s.ex) ∧
      KeepsMemoryBut (storeAddress b (readA b a s).2) s t := by
  obtain ⟨hregs, hkept⟩ := assign_frame b a s
  exact ⟨fun r hb ⟨hi, hj⟩ => (moveCursors_reg d _ hi hj).trans (hregs r hb), hkept⟩

/-! ## What the special instructions keep, by the mode (R261 to R270) -/

/-- The move of SP that a special instruction makes in `Wired` mode only. -/
def wiredMove (mode : SpecialMode) (d : Word) : Word := if mode = .wired then d else 0

/-- JSR stores at the SP that it leaves. -/
theorem jsr_frame (mode : SpecialMode) (a : Operand) (s : State) :
    let t := byMode mode a (jsrWired a) s
    t.regs = s.regs ∧ t.ex = s.ex ∧ KeepsControl s t ∧
      (mode = .noOp ∧ t.sp = s.sp ∧ (∀ x, t.mem.read x = s.mem.read x) ∨
        mode = .wired ∧ t.sp = s.sp + popMove a - 1 ∧ KeepsMemoryBut (some (s.sp + popMove a - 1)) s t) := by
  cases mode with
  | noOp => simp [byMode, KeepsControl]
  | wired =>
    have ht : byMode .wired a (jsrWired a) s = { s with
        pc := (readSpecial a s).1, sp := s.sp + popMove a - 1
        mem := s.mem.write (s.sp + popMove a - 1) (s.pc + BitVec.ofNat 16 (specialLength a)) } := by
      simp [byMode, jsrWired, readSpecial_state, State.push]
    rw [ht]
    exact ⟨rfl, rfl, ⟨rfl, rfl, rfl, rfl, rfl, rfl⟩, .inr ⟨rfl, rfl, fun x hx =>
      Memory.read_write_other _ _ fun h => hx (congrArg some h.symm)⟩⟩

/-- INT writes the queue or ON_FIRE. -/
theorem int_frame (mode : SpecialMode) (a : Operand) (s : State) :
    let t := byMode mode a (intWired a) s
    t.regs = s.regs ∧ t.ex = s.ex ∧ t.sp = s.sp + wiredMove mode (popMove a) ∧ t.ia = s.ia ∧ t.halted = s.halted ∧
      t.queueInterrupts = s.queueInterrupts ∧ t.error = s.error ∧ ∀ x, t.mem.read x = s.mem.read x := by
  cases mode with
  | noOp => simp [byMode, wiredMove]
  | wired => simp [byMode, wiredMove, intWired, readSpecial]

/-- IAG writes its operand, in the state after the PC's advance. -/
theorem iag_frame (mode : SpecialMode) (a : Operand) (s : State) :
    let t := byMode mode a (iagWired a) s
    KeepsRegsBut a s t ∧ KeepsControl s t ∧ (a ≠ .spReg → a ≠ .pushPop → t.sp = s.sp) ∧ (a ≠ .exReg → t.ex = s.ex) ∧
      (a ≠ .pcReg → t.pc = s.pc + BitVec.ofNat 16 (specialLength a)) ∧
      KeepsMemoryBut (storeAddress a (s.advance (specialLength a))) s t := by
  cases mode with
  | noOp =>
    exact ⟨fun _ _ => rfl, ⟨rfl, rfl, rfl, rfl, rfl, rfl⟩, fun _ _ => rfl, fun _ => rfl, fun _ => rfl, fun _ _ => rfl⟩
  | wired =>
    obtain ⟨hregs, hcontrol, hsp, hpc, hex, hmem⟩ :=
      writeOperand_frame a s.ia s (s.pc + BitVec.ofNat 16 (specialLength a)) s.sp
    refine ⟨hregs, hcontrol, fun hne hpush => ?_, hex, hpc, hmem⟩
    rw [popMove_of_ne hpush, sub_zero] at hsp
    exact hsp hne

/-- IAS writes IA. -/
theorem ias_frame (mode : SpecialMode) (a : Operand) (s : State) :
    let t := byMode mode a (iasWired a) s
    t.regs = s.regs ∧ t.ex = s.ex ∧ t.sp = s.sp + wiredMove mode (popMove a) ∧ KeepsControl { s with ia := t.ia } t ∧
      ∀ x, t.mem.read x = s.mem.read x := by
  cases mode with
  | noOp => simp [byMode, wiredMove, KeepsControl]
  | wired => simp [byMode, wiredMove, iasWired, readSpecial_state, KeepsControl]

/-- RFI writes A and clears QUEUE_INTERRUPTS, and pops twice. -/
theorem rfi_frame (mode : SpecialMode) (a : Operand) (s : State) :
    let t := byMode mode a (rfiWired a) s
    (∀ r, r ≠ .a → t.reg r = s.reg r) ∧ t.ex = s.ex ∧ t.sp = s.sp + wiredMove mode 2 ∧
      KeepsControl { s with queueInterrupts := t.queueInterrupts } t ∧ ∀ x, t.mem.read x = s.mem.read x := by
  cases mode with
  | noOp => simp [byMode, wiredMove, KeepsControl]
  | wired =>
    have ht : byMode .wired a (rfiWired a) s = _ := rfiWired_eq a s
    rw [ht]
    exact ⟨fun r hr => s.regs.get_set_other _ hr, rfl, rfl, ⟨rfl, rfl, rfl, rfl, rfl, rfl⟩, fun _ => rfl⟩

/-- IAQ writes QUEUE_INTERRUPTS. -/
theorem iaq_frame (mode : SpecialMode) (a : Operand) (s : State) :
    let t := byMode mode a (iaqWired a) s
    t.regs = s.regs ∧ t.ex = s.ex ∧ t.sp = s.sp + wiredMove mode (popMove a) ∧
      KeepsControl { s with queueInterrupts := t.queueInterrupts } t ∧ ∀ x, t.mem.read x = s.mem.read x := by
  cases mode with
  | noOp => simp [byMode, wiredMove, KeepsControl]
  | wired => simp [byMode, wiredMove, iaqWired, readSpecial_state, KeepsControl]

end Sys2Proof.Machine

namespace Sys2Proof
open Machine

/-! ## The obligations -/

/-- Settles O44: each of the eleven is `computeEx` over its own computation. -/
theorem resultAndExFrame : Obligations.ResultAndExFrame := by
  intro b a s
  simp only [List.forall_mem_cons]
  exact ⟨⟨_, rfl, computeEx_frame ..⟩, ⟨_, rfl, computeEx_frame ..⟩, ⟨_, rfl, computeEx_frame ..⟩,
    ⟨_, rfl, computeEx_frame ..⟩, ⟨_, rfl, computeEx_frame ..⟩, ⟨_, rfl, computeEx_frame ..⟩,
    ⟨_, rfl, computeEx_frame ..⟩, ⟨_, rfl, computeEx_frame ..⟩, ⟨_, rfl, computeEx_frame ..⟩,
    ⟨_, rfl, computeEx_frame ..⟩, ⟨_, rfl, computeEx_frame ..⟩, fun _ h => nomatch h⟩

/-- Settles O45: each of the five is `compute` over its own computation. -/
theorem resultFrame : Obligations.ResultFrame := by
  intro b a s
  simp only [List.forall_mem_cons]
  exact ⟨⟨_, rfl, compute_frame ..⟩, ⟨_, rfl, compute_frame ..⟩, ⟨_, rfl, compute_frame ..⟩,
    ⟨_, rfl, compute_frame ..⟩, ⟨_, rfl, compute_frame ..⟩, fun _ h => nomatch h⟩

/-- Settles O46: each of the three assigns, and STI and STD then move the cursors. -/
theorem assignmentFrame : Obligations.AssignmentFrame := by
  intro b a s
  obtain ⟨hregs, hkept⟩ := assign_frame b a s
  obtain ⟨hregsUp, hkeptUp⟩ := copy_frame 1 b a s
  obtain ⟨hregsDown, hkeptDown⟩ := copy_frame (-1) b a s
  simp only [List.forall_mem_cons]
  exact ⟨⟨_, rfl, fun r hb _ => hregs r hb, hkept⟩,
    ⟨_, rfl, fun r hb hr => hregsUp r hb (hr.resolve_left nofun), hkeptUp⟩,
    ⟨_, rfl, fun r hb hr => hregsDown r hb (hr.resolve_left nofun), hkeptDown⟩, fun _ h => nomatch h⟩

/-- Settles O48: each of the six by its frame in the machine's mode. -/
theorem specialFrame : Obligations.SpecialFrame := fun a s =>
  ⟨⟨_, rfl, jsr_frame _ a s⟩, ⟨_, rfl, int_frame _ a s⟩, ⟨_, rfl, iag_frame _ a s⟩, ⟨_, rfl, ias_frame _ a s⟩,
    ⟨_, rfl, rfi_frame _ a s⟩, ⟨_, rfl, iaq_frame _ a s⟩⟩

end Sys2Proof
end

section
/-! The proofs about sequences of enqueues and the return from a handler (60_exceptions.md sections 2 to 4). -/

namespace Sys2Proof.Machine

/-- A queue of 256 messages takes no other: the first 256 are those pending. -/
theorem take_append_of_full {q : List Word} (h : q.length = 256) (ms : List Word) : (q ++ ms).take 256 = q := by
  rw [← h, List.take_left]

/-- R322: from a full queue every further message sets ON_FIRE, and with room the message goes to the back. -/
theorem foldl_enqueue (ms : List Word) {s : State} (h : s.queue.length ≤ 256) :
    ms.foldl (fun t m => (enqueue m t).1) s =
      { s with
        queue := (s.queue ++ ms).take 256, onFire := s.onFire || decide (256 < s.queue.length + ms.length) } := by
  induction ms generalizing s with
  | nil => simp [List.take_of_length_le h, Nat.not_lt.mpr h]
  | cons m ms ih =>
    rw [List.foldl_cons]
    rcases enqueue_cases m s with ⟨hfull, he⟩ | ⟨hroom, he⟩
    · have hlen : s.queue.length = 256 := Nat.le_antisymm h hfull
      rw [he]
      refine (ih (s := { s with onFire := true }) h).trans ?_
      simp [take_append_of_full hlen, hlen]
    · have hlen : (s.queue ++ [m]).length ≤ 256 := by rw [List.length_append]; exact hroom
      rw [he]
      refine (ih (s := { s with queue := s.queue ++ [m] }) hlen).trans ?_
      simp [Nat.add_assoc, Nat.add_comm 1]

/-- Setting A back undoes a delivery's setting of it. -/
theorem Regs.set_a_undo (g : Regs) (v : Word) : (g.set .a v).set .a (g.get .a) = g := rfl

end Sys2Proof.Machine

namespace Sys2Proof
open Machine

/-! ## The obligations -/

/-- Settles O50. -/
theorem enqueuingASequenceKeepsTheFirst256 : Obligations.EnqueuingASequenceKeepsTheFirst256 := fun ms _ h =>
  foldl_enqueue ms h

/-- Settles O54: RFI pops the two words that O52 places on the stack, the PC above A. -/
theorem rfiUndoesDelivery : Obligations.RfiUndoesDelivery := by
  intro a s m q hd hq hia
  obtain ⟨-, -, hsp, hpcWord, haWord, -⟩ := deliveryEntersTheHandler s m q hd hq hia
  have ht : attemptDelivery s = enterHandler m { s with queue := q } := attemptDelivery_of_ia_ne_zero hd hq hia
  have hback : s.sp - 2 + 1 = s.sp - 1 := by bv_omega
  rw [rfiWired_eq, haWord, hsp, hback, hpcWord, sub_add_cancel, ht]
  simp only [enterHandler_regs, State.reg, Regs.set_a_undo, ← hd]
  rfl

end Sys2Proof
end

section
/-! The proofs about memory, reset and load (20_memory.md, 10_state.md section 6, 70_reset_and_hazards.md). -/

namespace Sys2Proof.Machine

/-! ## The words of a canonical memory (log entry 1) -/

/-- In a memory with rising keys a listed word is the one looked up. -/
theorem Memory.lookup_of_mem {m : Memory} (h : m.Pairwise fun p q => p.1 < q.1) {a : Nat} {v : Word}
    (hm : (a, v) ∈ m) : m.lookup a = v := by
  induction m with
  | nil => cases hm
  | cons p m ih =>
    obtain ⟨hfirst, hrest⟩ := List.pairwise_cons.mp h
    rw [Memory.lookup]
    rcases List.mem_cons.mp hm with rfl | hm
    · exact if_pos rfl
    · rw [if_neg (Nat.ne_of_lt (hfirst _ hm)), ih hrest hm]

/-- A word other than 0 that is looked up is listed. -/
theorem Memory.mem_of_lookup {m : Memory} {a : Nat} {v : Word} (hv : v ≠ 0) (h : m.lookup a = v) : (a, v) ∈ m := by
  induction m with
  | nil => exact absurd h.symm hv
  | cons p m ih =>
    rw [Memory.lookup] at h
    split at h
    next hp => rw [← hp, ← h]; exact List.mem_cons_self
    next => exact List.mem_cons_of_mem _ (ih h)

/-- What one canonical memory lists, another that reads alike lists too. -/
theorem Memory.subset_of_reads {m m' : Memory} (h : m.wf) (hr : ∀ x : Word, m.read x = m'.read x) : m ⊆ m' := by
  rintro ⟨a, v⟩ hm
  obtain ⟨ha, hv⟩ := h.2 _ hm
  have hread := hr (BitVec.ofNat 16 a)
  rw [Memory.read, Memory.read, BitVec.toNat_ofNat, Nat.mod_eq_of_lt ha, Memory.lookup_of_mem h.1 hm] at hread
  exact Memory.mem_of_lookup hv hread.symm

/-! ## Load (R363) -/

/-- A load changes memory only. -/
theorem storeWords_state (base : Nat) (ws : List Word) (s : State) :
    storeWords base ws s = { s with mem := (storeWords base ws s).mem } := by
  induction ws generalizing base s with
  | nil => rfl
  | cons w ws ih => rw [storeWords, ih]; rfl

/-- A load below the top of memory leaves every address outside the words. -/
theorem storeWords_read_outside {base : Nat} {ws : List Word} {s : State} (h : base + ws.length ≤ 65536) {x : Word}
    (hx : x.toNat < base ∨ base + ws.length ≤ x.toNat) : (storeWords base ws s).mem.read x = s.mem.read x := by
  induction ws generalizing base s with
  | nil => rfl
  | cons w ws ih =>
    rw [List.length_cons] at h hx
    have hne : x ≠ BitVec.ofNat 16 base := by
      rintro rfl
      rw [BitVec.toNat_ofNat] at hx
      omega
    rw [storeWords, ih (by omega) (by omega), store_mem, Memory.read_write_other _ _ hne]

/-- It puts each word at its address: the words after it do not overwrite it. -/
theorem storeWords_read_word {base : Nat} {ws : List Word} {s : State} (h : base + ws.length ≤ 65536) {k : Nat}
    (hk : k < ws.length) : (storeWords base ws s).mem.read (BitVec.ofNat 16 (base + k)) = ws[k] := by
  induction ws generalizing base s k with
  | nil => cases hk
  | cons w ws ih =>
    rw [List.length_cons] at h hk
    rw [storeWords]
    cases k with
    | zero =>
      rw [storeWords_read_outside (by omega) (.inl (by rw [BitVec.toNat_ofNat]; omega))]
      exact Memory.read_write_same ..
    | succ k =>
      have hpos : base + (k + 1) = base + 1 + k := by omega
      rw [hpos, ih (by omega) (by omega)]
      rfl

end Sys2Proof.Machine

namespace Sys2Proof
open Machine

/-! ## The obligations -/

/-- Settles O55: the two list the same pairs, and rising keys leave one order for them. -/
theorem canonicalMemoriesThatReadAlikeAreEqual : Obligations.CanonicalMemoriesThatReadAlikeAreEqual := by
  intro m m' h h' hr
  have : Std.Irrefl fun p q : Nat × Word => p.1 < q.1 := ⟨fun p => Nat.lt_irrefl p.1⟩
  have : Std.Antisymm fun p q : Nat × Word => p.1 < q.1 := ⟨fun _ _ hpq hqp => absurd hqp (Nat.lt_asymm hpq)⟩
  exact List.Subset.antisymm_of_pairwise h.1 h'.1 (Memory.subset_of_reads h hr)
    (Memory.subset_of_reads h' fun x => (hr x).symm)

/-- Settles O56. -/
theorem resetIsTheZeroState : Obligations.ResetIsTheZeroState :=
  ⟨fun r => by cases r <;> rfl, Memory.read_nil, rfl, rfl, rfl, rfl, rfl, rfl, rfl, rfl, rfl⟩

/-- Settles O57: by the length of the image; one of at most 65536 words fits below the top of memory. -/
theorem loadPlacesTheImageFromAddressZero : Obligations.LoadPlacesTheImageFromAddressZero := by
  refine fun words s => ⟨fun hfits => ⟨storeWords 0 words s, if_pos hfits, storeWords_state 0 words s, ?_, ?_⟩,
    fun hlong => if_neg (Nat.not_le.mpr hlong)⟩
  · intro k hk
    have hword := storeWords_read_word (base := 0) (s := s) (by omega) hk
    rwa [Nat.zero_add] at hword
  · exact fun x hx => storeWords_read_outside (by omega) (.inr (by omega))

end Sys2Proof
end
